-- ==== Sys2Proof/Word.lean ====
section
/-! DEFINITION. The words of the key-wrap engine: semiblocks, cipher blocks and the four-register banks
(spec/00_scope.md rules R4, R5, R9; spec/10_state.md rules R21, R25). -/

namespace Sys2Proof

/-- One byte of a byte string. -/
abbrev Byte := BitVec 8

/-- A semiblock: a fixed 8-byte chunk, 64 bits (R4). A slot of the host port has the same width (R67). -/
abbrev Semi := BitVec 64

/-- One cipher block: two semiblocks, 128 bits (R5). -/
abbrev Block128 := BitVec 128

/-- A bank of four 64-bit registers: `R[0..3]` (R21) or `K[0..3]` (R25). -/
structure Quad where
  q0 : Semi
  q1 : Semi
  q2 : Semi
  q3 : Semi
deriving DecidableEq, Repr

end Sys2Proof
end

