-- ==== Sys2Proof/Config.lean ====
section
/-! DEFINITION. What the spec fixes as constants and what it leaves as a parameter: the cipher
(spec/00_scope.md rules R6, R7, R9, R13; spec/44_cipher_port.md rules R191, R194). -/

namespace Sys2Proof

/-- The direction bit of a cipher request: `ENC` encrypts one block, `DEC` decrypts one (R191). -/
inductive Dir where
  | enc
  | dec
deriving DecidableEq, Repr

/-- One cipher request, kept as a record of its four fields (R191 allows this). -/
structure Request where
  dir   : Dir
  ksz   : BitVec 2
  key   : BitVec 256
  block : Block128
deriving DecidableEq, Repr

/-- One cipher response, kept as the tagged value of R194: `Ok(block)` or `Err(code)`. -/
inductive Response where
  | ok  (block : Block128)
  | err (code : BitVec 16)
deriving DecidableEq, Repr, Inhabited

/-- A cipher: its answer is a function of the four request fields alone (R13 (a), R196 (b)). -/
abbrev Cipher := Request → Response

namespace Config

/-- The block cipher adapter's function, the open parameter P1 of spec/92_eei_decisions.md. It has no body,
so nothing can be proved of what it answers: FREE VALUE, notes/assumptions/2.md. -/
opaque cipher : Cipher

/-- The Integrity Check Value, `0xA6` eight times (R7). -/
def icv : Semi := 0xA6A6A6A6A6A6A6A6#64

/-- `ROUNDS`, the number of values of the round counter `j` (R6). -/
def rounds : Nat := 6

/-- `N_MAX`, the number of elements of the register array (R9). -/
def nMax : Nat := 4

end Config
end Sys2Proof
end

