-- ==== Sys2Proof/Syntax.lean ====
section
/-! DEFINITION. The operations of the block: one constructor for each row of spec/opcode_table.json
(spec/30_encoding.md rule R96), and the sixteen slots a host transaction can name (spec/20_memory.md rule R68). -/

namespace Sys2Proof

/-- A slot of the host port (R67, R68). -/
inductive Slot where
  /-- slot 0, CMD -/
  | cmd
  /-- slot 1, STATUS -/
  | status
  /-- slot 2, KLEN -/
  | klen
  /-- slot 3, DLEN -/
  | dlen
  /-- slots 4 to 7, `K[q]` -/
  | k (q : BitVec 2)
  /-- slot 8, `A` -/
  | a
  /-- slots 9 to 12, `R[q]` -/
  | r (q : BitVec 2)
  /-- slot 13, reserved (R75) -/
  | s13
  /-- slot 14, reserved (R75) -/
  | s14
  /-- slot 15, reserved (R75) -/
  | s15
deriving DecidableEq, Repr

/-- The fourteen operations of R96. -/
inductive Instr where
  /-- `RD`: a host read of a slot (R70) -/
  | rd (slot : Slot)
  /-- `WR`: a host write of a slot (R71) -/
  | wr (slot : Slot) (wdata : Semi)
  /-- `NOP`: the command 0 (R111) -/
  | nop
  /-- `WRAP`: the command 1 (R119) -/
  | wrap
  /-- `UNWRAP`: the command 2 (R120) -/
  | unwrap
  /-- `CLEAR`: the command 3 (R122) -/
  | clear
  /-- `W.ISSUE` (R157) -/
  | wIssue
  /-- `W.RETIRE` (R158) -/
  | wRetire
  /-- `W.FIN` (R160) -/
  | wFin
  /-- `U.ISSUE` (R172) -/
  | uIssue
  /-- `U.RETIRE` (R173) -/
  | uRetire
  /-- `U.FIN` (R174) -/
  | uFin
  /-- `C.RESPOND`: the adapter's answer, the three fields of the CRSP word (R194, R195) -/
  | cRespond (err : BitVec 1) (code : BitVec 16) (block : Block128)
  /-- `RESET`: `rst` asserted (R240) -/
  | reset
deriving DecidableEq, Repr

end Sys2Proof
end

