-- ==== Sys2Proof/WellFormed.lean ====
section
/-! DEFINITION. Which terms of `Instr` stand for a word of the spec's formats (spec/30_encoding.md rules R87, R96, R98). -/

namespace Sys2Proof

/-- The command word is one of the four that R87 assigns: its bits 63 to 2 are zero. -/
def legalCommand (v : Semi) : Bool := v.extractLsb' 2 62 == 0#62

/-- A write to slot 0 is a `WR` only if it carries an illegal command word: the four legal ones are the
operations NOP, WRAP, UNWRAP and CLEAR (R96, R98). Every other term is well formed as it stands. -/
def Instr.wellFormed : Instr → Bool
  | .wr .cmd v => !legalCommand v
  | .rd _ | .wr _ _ | .nop | .wrap | .unwrap | .clear => true
  | .wIssue | .wRetire | .wFin | .uIssue | .uRetire | .uFin => true
  | .cRespond _ _ _ | .reset => true

end Sys2Proof
end

