-- ==== Sys2Proof/Decode.lean ====
section
/-! DEFINITION. The decoder and, after it, the encoder, for the formats HOSTX, CMD, USTATE, CRSP and CREQ
(spec/30_encoding.md rules R85 to R87, R92, R96, R97; spec/44_cipher_port.md rules R191, R194). -/

namespace Sys2Proof

/-- A word of one of the spec's formats. The formats travel on different ports, so a word comes with its
format (R85). -/
inductive Encoded where
  /-- HOSTX, a host transaction (R86) -/
  | hostx (w : BitVec 69)
  /-- CMD, a value written to slot 0 (R87) -/
  | cmd (v : BitVec 64)
  /-- USTATE, the control-state vector (R92) -/
  | ustate (w : BitVec 5)
  /-- CRSP, a cipher response (R194) -/
  | crsp (w : BitVec 145)
  /-- `rst` asserted: no bit pattern (R96, R240) -/
  | rst
deriving DecidableEq, Repr

/-- Why a word is no operation. -/
inductive DecodeError where
  /-- a CMD value with any of bits 63 to 2 set (R87, R98) -/
  | illegalCommandWord
  /-- USTATE with phase IDLE or DONE: the engine has no step (R97) -/
  | noEngineStep
  /-- USTATE with phase 3, or BUSY with sub 3: never taken (R97, R98) -/
  | unreachableControlState
deriving DecidableEq, Repr

/-- The slot a 4-bit index names (R68). -/
def slotOfIdx (idx : BitVec 4) : Slot :=
  match idx.toNat with
  | 0 => .cmd
  | 1 => .status
  | 2 => .klen
  | 3 => .dlen
  | 4 => .k 0
  | 5 => .k 1
  | 6 => .k 2
  | 7 => .k 3
  | 8 => .a
  | 9 => .r 0
  | 10 => .r 1
  | 11 => .r 2
  | 12 => .r 3
  | 13 => .s13
  | 14 => .s14
  | _ => .s15

/-- The command a 64-bit value names (R87). -/
def decodeCmd (v : Semi) : Except DecodeError Instr :=
  if legalCommand v then
    match (v.extractLsb' 0 2).toNat with
    | 0 => .ok .nop
    | 1 => .ok .wrap
    | 2 => .ok .unwrap
    | _ => .ok .clear
  else .error .illegalCommandWord

/-- A host transaction (R86, R96). A write to slot 0 of an illegal command word matches no row of the table,
but it is still a host write, which the block refuses (R98): notes/assumptions/8.md. -/
def decodeHostx (w : BitVec 69) : Instr :=
  let slot := slotOfIdx (w.extractLsb' 64 4)
  let wdata : Semi := w.extractLsb' 0 64
  if w.extractLsb' 68 1 = 0#1 then .rd slot
  else
    match slot, decodeCmd wdata with
    | .cmd, .ok i => i
    | slot, _ => .wr slot wdata

/-- Micro-operation selection (R97): phase in bits 4 to 3, sub in bits 2 to 1, mode in bit 0. -/
def decodeUstate (w : BitVec 5) : Except DecodeError Instr :=
  match (w.extractLsb' 3 2).toNat, (w.extractLsb' 1 2).toNat, (w.extractLsb' 0 1).toNat with
  | 1, 0, 0 => .ok .wIssue
  | 1, 1, 0 => .ok .wRetire
  | 1, 2, 0 => .ok .wFin
  | 1, 0, 1 => .ok .uIssue
  | 1, 1, 1 => .ok .uRetire
  | 1, 2, 1 => .ok .uFin
  | 0, _, _ => .error .noEngineStep
  | 2, _, _ => .error .noEngineStep
  | _, _, _ => .error .unreachableControlState

/-- A cipher response's three fields (R194). -/
def decodeCrsp (w : BitVec 145) : Instr :=
  .cRespond (w.extractLsb' 144 1) (w.extractLsb' 128 16) (w.extractLsb' 0 128)

/-- The operation a word stands for, or the reason it stands for none. -/
def decode : Encoded → Except DecodeError Instr
  | .hostx w => .ok (decodeHostx w)
  | .cmd v => decodeCmd v
  | .ustate w => decodeUstate w
  | .crsp w => .ok (decodeCrsp w)
  | .rst => .ok .reset

/-- A word of `nbits` table bits with its format: the widths 0, 5, 64, 69 and 145, or the same in whole
bytes (R85). A word with bits above its format's width is none: notes/assumptions/9.md. -/
def tableFormat (nbits w : Nat) : Option Encoded :=
  if nbits = 0 then some .rst
  else if nbits ≤ 8 then if w < 2 ^ 5 then some (.ustate (BitVec.ofNat 5 w)) else none
  else if nbits ≤ 64 then if w < 2 ^ 64 then some (.cmd (BitVec.ofNat 64 w)) else none
  else if nbits ≤ 72 then if w < 2 ^ 69 then some (.hostx (BitVec.ofNat 69 w)) else none
  else if w < 2 ^ 145 then some (.crsp (BitVec.ofNat 145 w)) else none

/-- The operation the decoder reads from the bits `w` of a row of spec/opcode_table.json. -/
def decodeTableWord (nbits w : Nat) : Option Instr :=
  match tableFormat nbits w with
  | some e => (decode e).toOption
  | none => none

/-! The encoder, from the same tables. -/

/-- The index of a slot (R68). -/
def slotIdx : Slot → BitVec 4
  | .cmd => 0
  | .status => 1
  | .klen => 2
  | .dlen => 3
  | .k q => 4 + q.setWidth 4
  | .a => 8
  | .r q => 9 + q.setWidth 4
  | .s13 => 13
  | .s14 => 14
  | .s15 => 15

/-- The HOSTX word `we ‖ idx ‖ wdata` (R86). -/
def hostxWord (we : BitVec 1) (slot : Slot) (wdata : Semi) : BitVec 69 := we ++ slotIdx slot ++ wdata

/-- The CRSP word `err ‖ code ‖ block` (R194). -/
def crspWord (err : BitVec 1) (code : BitVec 16) (block : Block128) : BitVec 145 := err ++ code ++ block

/-- The word of an operation in the format its row of the table gives (R96). -/
def encode : Instr → Encoded
  | .rd slot => .hostx (hostxWord 0 slot 0)
  | .wr slot v => .hostx (hostxWord 1 slot v)
  | .nop => .cmd 0
  | .wrap => .cmd 1
  | .unwrap => .cmd 2
  | .clear => .cmd 3
  | .wIssue => .ustate 0b01000#5
  | .wRetire => .ustate 0b01010#5
  | .wFin => .ustate 0b01100#5
  | .uIssue => .ustate 0b01001#5
  | .uRetire => .ustate 0b01011#5
  | .uFin => .ustate 0b01101#5
  | .cRespond e c b => .crsp (crspWord e c b)
  | .reset => .rst

/-- The HOSTX word of a host operation: a command is a write of its CMD value to slot 0 (R96, R100, R101). -/
def encodeHostx : Instr → Option (BitVec 69)
  | .rd slot => some (hostxWord 0 slot 0)
  | .wr slot v => some (hostxWord 1 slot v)
  | .nop => some (hostxWord 1 .cmd 0)
  | .wrap => some (hostxWord 1 .cmd 1)
  | .unwrap => some (hostxWord 1 .cmd 2)
  | .clear => some (hostxWord 1 .cmd 3)
  | .wIssue | .wRetire | .wFin | .uIssue | .uRetire | .uFin => none
  | .cRespond _ _ _ | .reset => none

/-- The value that a CRSP word's fields stand for: `err = 0` is `Ok(block)`, `err = 1` is `Err(code)` (R194). -/
def responseOf (err : BitVec 1) (code : BitVec 16) (block : Block128) : Response :=
  if err = 0#1 then .ok block else .err code

/-- The CRSP word of a response. The field R194 calls meaningless is zero: notes/assumptions/12.md. -/
def responseWord : Response → BitVec 145
  | .ok block => crspWord 0 0 block
  | .err code => crspWord 1 code 0

/-- The direction bit (R191). -/
def dirBit : Dir → BitVec 1
  | .enc => 0
  | .dec => 1

/-- The CREQ word `dir ‖ ksz ‖ key ‖ block`, 387 bits (R191). -/
def requestWord (q : Request) : BitVec 387 := dirBit q.dir ++ q.ksz ++ q.key ++ q.block

end Sys2Proof
end

