-- ==== Sys2Proof/Machine/State.lean ====
section
/-! DEFINITION. The state: the block's own registers (spec/10_state.md rule R46, all 633 bits of it) and, beside
them, what the model needs of the agents outside the block (their pending turns, the response channel, the read data). -/

namespace Sys2Proof.Machine

/-- `phase`, a 2-bit register; the value 3 is never taken and cannot be written down here (R30): notes/assumptions/7.md. -/
inductive Phase where
  | idle
  | busy
  | done
deriving DecidableEq, Repr

/-- `sub`, a 2-bit register; the value 3 is never taken and cannot be written down here (R31). -/
inductive Sub where
  | issue
  | wait
  | fin
deriving DecidableEq, Repr

/-- `mode`, a 1-bit register (R32). -/
inductive Mode where
  | wrap
  | unwrap
deriving DecidableEq, Repr

/-- `outcome`, a 3-bit register; the value 7 is never taken and cannot be written down here (R38). -/
inductive OutcomeCode where
  | none
  | ok
  | integrityFail
  | invalidKekLen
  | invalidKeyLen
  | invalidWrappedLen
  | primitiveErr
deriving DecidableEq, Repr

/-- The complete state of the block, the tuple of R46, under the spec's names. -/
structure Regs where
  /-- the accumulator (R20) -/
  A : Semi
  /-- the semiblock register array (R21) -/
  R : Quad
  /-- the key-encrypting key (R25) -/
  K : Quad
  /-- the declared KEK length in bytes (R27) -/
  KLEN : BitVec 8
  /-- the declared data length in bytes (R28) -/
  DLEN : BitVec 8
  /-- IDLE, BUSY or DONE (R30) -/
  phase : Phase
  /-- ISSUE, WAIT or FIN (R31) -/
  sub : Sub
  /-- WRAP or UNWRAP (R32) -/
  mode : Mode
  /-- the semiblock count (R33) -/
  n : BitVec 3
  /-- the round counter (R34) -/
  j : BitVec 3
  /-- the index counter (R35) -/
  i : BitVec 2
  /-- the result code (R38) -/
  outcome : OutcomeCode
  /-- the sticky refusal flag (R39) -/
  rej : Bool
  /-- the result length in bytes (R40) -/
  rlen : BitVec 8
  /-- the adapter's error code (R41) -/
  perr : BitVec 16
deriving DecidableEq, Repr

/-- One turn of an agent. R14 lets the agents' steps interleave in any order; the order is an input of the
model, held as a list of turns: notes/assumptions/1.md. -/
inductive Turn where
  /-- the host drives this HOSTX word on the host port (R66, R86) -/
  | host (w : BitVec 69)
  /-- the engine takes its selected step, if it has one (R97, R135) -/
  | engine
  /-- the adapter does its duty: it answers the outstanding request, if there is one, as the cipher says (R195) -/
  | answer
  /-- this CRSP word appears on the response channel, duty or not (R194, R196 (a)): notes/assumptions/4.md -/
  | respond (w : BitVec 145)
  /-- the platform asserts `rst` (R240) -/
  | rst
deriving DecidableEq, Repr

/-- The machine's state. -/
structure State where
  /-- the block's registers (R46) -/
  regs : Regs
  /-- MODEL'S OWN: the response on the cipher port that the engine has not consumed yet: notes/assumptions/3.md -/
  crsp : Option Response
  /-- MODEL'S OWN: the `rdata` of the last host read (R66): notes/assumptions/5.md -/
  rdata : Semi
  /-- MODEL'S OWN: the turns still to come, the next one first; when none is left the engine moves: notes/assumptions/1.md -/
  turns : List Turn
deriving DecidableEq, Repr

/-- The block has no fault: "Nothing in this spec is `fault`" (spec/93_implementation_defined.md), no host access
and no reachable state lacks a rule (spec/60_exceptions.md rule R215). So this type has no constructor, which is safe:
nothing the spec gives an effect to is stopped. -/
inductive Fault where
deriving DecidableEq, Repr

/-- Why an operation has no meaning. -/
inductive Refusal where
  /-- raised by an arm of `exec` for an operation not modelled yet, which is safe (the run stops); no arm raises it now -/
  | notModelled (mnemonic : String)
deriving DecidableEq, Repr

/-- The block's registers after reset, every line of R48's table. -/
def Regs.reset : Regs where
  A := 0
  R := ⟨0, 0, 0, 0⟩
  K := ⟨0, 0, 0, 0⟩
  KLEN := 0
  DLEN := 0
  phase := .idle
  sub := .issue
  mode := .wrap
  n := 0
  j := 0
  i := 0
  outcome := .none
  rej := false
  rlen := 0
  perr := 0

/-- The machine right after reset (R48): no request outstanding, hence no response on the port; no turn given.
`rdata` is the model's own field; its value here is a DESIGN CHOICE: notes/assumptions/5.md. -/
def State.reset : State where
  regs := Regs.reset
  crsp := none
  rdata := 0
  turns := []

end Sys2Proof.Machine
end

