-- ==== Sys2Proof/Machine/Operands.lean ====
section
/-! DEFINITION. Operands: the numeric codes of the control registers, the register banks, the step counter, the
halves of a cipher block, the key bus and the cipher request (spec/10_state.md, spec/20_memory.md rules R60 to R63,
spec/30_encoding.md rules R92 to R95, spec/44_cipher_port.md rule R192). -/

namespace Sys2Proof.Machine

/-- The 2-bit code of `phase` (R30). -/
def phaseCode : Phase → BitVec 2
  | .idle => 0
  | .busy => 1
  | .done => 2

/-- The 2-bit code of `sub` (R31). -/
def subCode : Sub → BitVec 2
  | .issue => 0
  | .wait => 1
  | .fin => 2

/-- The 1-bit code of `mode` (R32). -/
def modeCode : Mode → BitVec 1
  | .wrap => 0
  | .unwrap => 1

/-- The 3-bit code of `outcome` (R38). -/
def outcomeCode : OutcomeCode → BitVec 3
  | .none => 0
  | .ok => 1
  | .integrityFail => 2
  | .invalidKekLen => 3
  | .invalidKeyLen => 4
  | .invalidWrappedLen => 5
  | .primitiveErr => 6

/-- The control-state vector USTATE: phase, sub, mode (R92). -/
def ustate (b : Regs) : BitVec 5 := phaseCode b.phase ++ subCode b.sub ++ modeCode b.mode

/-- Register `q` of a bank. -/
def bankGet (b : Quad) (q : BitVec 2) : Semi :=
  match q.toNat with
  | 0 => b.q0
  | 1 => b.q1
  | 2 => b.q2
  | _ => b.q3

/-- The bank with register `q` written: the four registers are distinct storage (R22). -/
def bankSet (b : Quad) (q : BitVec 2) (v : Semi) : Quad :=
  match q.toNat with
  | 0 => { b with q0 := v }
  | 1 => { b with q1 := v }
  | 2 => { b with q2 := v }
  | _ => { b with q3 := v }

/-- The bank of zeros: what a zeroizing step leaves. -/
def bankZero : Quad := ⟨0, 0, 0, 0⟩

/-- The step counter `t = n*j + i + 1`, a wire computed exactly on natural numbers (R36, R137). -/
def stepCounter (n j i : Nat) : Nat := n * j + i + 1

/-- `zext_64(t)` for the current counters (R63, R137). -/
def counterWord (b : Regs) : Semi := BitVec.ofNat 64 (stepCounter b.n.toNat b.j.toNat b.i.toNat)

/-- `MSB64(B) = B[127:64]` (R62). -/
def msb64 (b : Block128) : Semi := b.extractLsb' 64 64

/-- `LSB64(B) = B[63:0]` (R62). -/
def lsb64 (b : Block128) : Semi := b.extractLsb' 0 64

/-- The KEK lengths that let a START be accepted (R8, R113). -/
def kekLegal (klen : BitVec 8) : Bool := klen == 16 || klen == 24 || klen == 32

/-- What a write stores in KLEN or DLEN: `min(wdata, 255)` (R27, R28, R71). -/
def saturate (v : Semi) : BitVec 8 := BitVec.ofNat 8 (min v.toNat 255)

/-- `n` as an accepted START computes it from DLEN (R94, R118). -/
def semiblockCount (m : Mode) (dlen : BitVec 8) : BitVec 3 :=
  match m with
  | .wrap => BitVec.ofNat 3 (dlen.toNat / 8)
  | .unwrap => BitVec.ofNat 3 ((dlen.toNat - 8) / 8)

/-- `ksz = KLEN/8 - 2`, a wire (R93). -/
def keySize (klen : BitVec 8) : BitVec 2 := BitVec.ofNat 2 (klen.toNat / 8 - 2)

/-- `K[q]` as the key bus carries it: masked to zero at and beyond the declared length (R192, D33). -/
def keyLane (k : Quad) (klen : BitVec 8) (q : BitVec 2) : Semi :=
  if q.toNat < klen.toNat / 8 then bankGet k q else 0

/-- `KeyBus(K, KLEN)`, first key byte in bits 255 to 248 (R192, R193). The rule writes out the three legal lengths;
this is the same bus for each of them: notes/assumptions/11.md. -/
def keyBus (k : Quad) (klen : BitVec 8) : BitVec 256 :=
  keyLane k klen 0 ++ keyLane k klen 1 ++ keyLane k klen 2 ++ keyLane k klen 3

/-- The block of a wrap request, `A ‖ R[i]` (R157). -/
def wrapBlock (b : Regs) : Block128 := b.A ++ bankGet b.R b.i

/-- The block of an unwrap request, `(A xor zext_64(t)) ‖ R[i]`; `A` itself is not written (R172). -/
def unwrapBlock (b : Regs) : Block128 := (b.A ^^^ counterWord b) ++ bankGet b.R b.i

/-- The fields of the request, functions of the state (R192). -/
def requestFields (b : Regs) : Request :=
  match b.mode with
  | .wrap => { dir := .enc, ksz := keySize b.KLEN, key := keyBus b.K b.KLEN, block := wrapBlock b }
  | .unwrap => { dir := .dec, ksz := keySize b.KLEN, key := keyBus b.K b.KLEN, block := unwrapBlock b }

/-- A request is outstanding exactly while `phase == BUSY and sub == WAIT` (R45, R191). -/
def outstanding (b : Regs) : Bool := b.phase == .busy && b.sub == .wait

/-- What the engine drives on the request channel: the outstanding request, if there is one (R190, R191). -/
def cipherRequest (b : Regs) : Option Request := if outstanding b then some (requestFields b) else none

end Sys2Proof.Machine
end

