-- ==== Sys2Proof/Machine/Flags.lean ====
section
/-! DEFINITION. The status state: the STATUS view, `done_o`, the exceptional outcomes with their causes, and the
result length (spec/10_state.md rules R38 to R42, R47; spec/40_commands.md rules R113 to R116; spec/60_exceptions.md rule R210). -/

namespace Sys2Proof.Machine

/-- The exceptional outcomes of R210, with what each records. -/
inductive Exceptional where
  /-- KLEN not in 16, 24, 32 (R113) -/
  | invalidKekLength
  /-- WRAP with DLEN other than KLEN (R114) -/
  | invalidKeyLength
  /-- UNWRAP with DLEN other than KLEN + 8 (R116) -/
  | invalidWrappedKeyLength
  /-- the final accumulator of an unwrap is not the ICV (R176) -/
  | integrityFailure
  /-- the adapter answered `Err(code)` (R198) -/
  | primitiveFailure (code : BitVec 16)
deriving DecidableEq, Repr

/-- The bit of `rej` (R39). -/
def rejBit (rej : Bool) : BitVec 1 := BitVec.ofBool rej

/-- The STATUS view: `zext_64(perr ‖ rlen ‖ rej ‖ outcome ‖ 0b0 ‖ mode ‖ phase)` (R42). -/
def statusView (b : Regs) : Semi :=
  (b.perr ++ b.rlen ++ rejBit b.rej ++ outcomeCode b.outcome ++ 0#1 ++ modeCode b.mode ++ phaseCode b.phase).setWidth 64

/-- The level output `done_o = (phase == DONE)` (R47, R219). -/
def doneO (b : Regs) : Bool := b.phase == .done

/-- The length checks of an admitted START, the KEK length first (R113 to R116, R118). `KLEN + 8` is computed
without wrap-around. -/
def lengthError (m : Mode) (b : Regs) : Option Exceptional :=
  if kekLegal b.KLEN then
    match m with
    | .wrap => if b.DLEN = b.KLEN then none else some .invalidKeyLength
    | .unwrap => if b.DLEN.toNat = b.KLEN.toNat + 8 then none else some .invalidWrappedKeyLength
  else some .invalidKekLength

/-- `rlen` at the end of a successful wrap (R160). -/
def wrapResultLength (b : Regs) : BitVec 8 := b.DLEN + 8

/-- `rlen` at the end of a successful unwrap (R174). -/
def unwrapResultLength (b : Regs) : BitVec 8 := b.DLEN - 8

end Sys2Proof.Machine
end

