-- ==== Sys2Proof/Machine/Ops.lean ====
section
/-! DEFINITION. The named operations on the block's registers: the host port, the commands, raising an exceptional
outcome and returning from one, and the micro-operations' shared parts (spec/20_memory.md rules R70, R71;
spec/40_commands.md; spec/41_schedule.md; spec/60_exceptions.md). -/

namespace Sys2Proof.Machine

/-! Leaving BUSY, exceptional outcomes, and the return from them. -/

/-- What every step that leaves BUSY also does: `phase <- DONE ; sub <- 0 ; j <- 0 ; i <- 0` (R144). -/
def leaveBusy (b : Regs) : Regs := { b with phase := .done, sub := .issue, j := 0, i := 0 }

/-- `A <- 0 ; R[*] <- 0` (R176, R198). -/
def zeroizeData (b : Regs) : Regs := { b with A := 0, R := bankZero }

/-- A START refused for a length: exactly `outcome`, `rlen` and `perr` change (R117). -/
def refuseLength (o : OutcomeCode) (b : Regs) : Regs := { b with outcome := o, rlen := 0, perr := 0 }

/-- `raise <Outcome>`: everything an exceptional outcome changes (R117, R174, R176, R198, R221). An outcome of tier 2
or 3 ends the operation, so it leaves BUSY. -/
def raiseOutcome (e : Exceptional) (b : Regs) : Regs :=
  match e with
  | .invalidKekLength => refuseLength .invalidKekLen b
  | .invalidKeyLength => refuseLength .invalidKeyLen b
  | .invalidWrappedKeyLength => refuseLength .invalidWrappedLen b
  | .integrityFailure => leaveBusy (zeroizeData { b with outcome := .integrityFail, rlen := 0 })
  | .primitiveFailure code => leaveBusy (zeroizeData { b with outcome := .primitiveErr, perr := code, rlen := 0 })

/-- The return from DONE, whatever the outcome: CLEAR (R122, R223). -/
def clearRegs (b : Regs) : Regs :=
  { b with
    A := 0, R := bankZero, K := bankZero
    KLEN := 0, DLEN := 0
    phase := .idle, sub := .issue, mode := .wrap, n := 0, j := 0, i := 0
    outcome := .none, rej := false, rlen := 0, perr := 0 }

/-- `RESET`: every register takes its reset value, whatever it held (R48, R240). -/
def resetRegs (_ : Regs) : Regs := Regs.reset

/-! The commands and the host port. -/

/-- `reject`: `rej <- 1` and nothing else (R216). -/
def reject (b : Regs) : Regs := { b with rej := true }

/-- What an accepted START writes (R118). -/
def acceptStart (m : Mode) (b : Regs) : Regs :=
  let n := semiblockCount m b.DLEN
  { b with
    mode := m
    n := n
    A := match m with | .wrap => Config.icv | .unwrap => b.A
    j := match m with | .wrap => 0 | .unwrap => 5
    i := match m with | .wrap => 0 | .unwrap => BitVec.ofNat 2 (n.toNat - 1)
    sub := .issue
    phase := .busy
    outcome := .none
    rlen := 0
    perr := 0 }

/-- `Start(m)`, an admitted START (R118). -/
def start (m : Mode) (b : Regs) : Regs :=
  match lengthError m b with
  | some e => raiseOutcome e b
  | none => acceptStart m b

/-- `Command(v)`: a write of `v` to slot 0 outside BUSY (R110). -/
def command (v : Semi) (b : Regs) : Regs :=
  if legalCommand v then
    match (v.extractLsb' 0 2).toNat with
    | 0 => b
    | 1 => if b.phase = .idle then start .wrap b else reject b
    | 2 => if b.phase = .idle then start .unwrap b else reject b
    | _ => clearRegs b
  else reject b

/-- `HostRead(idx)`; it changes no register of the block (R70). -/
def hostRead (b : Regs) : Slot → Semi
  | .cmd => 0
  | .status => statusView b
  | .klen => b.KLEN.setWidth 64
  | .dlen => b.DLEN.setWidth 64
  | .k _ => 0
  | .a => if b.phase = .busy then 0 else b.A
  | .r q => if b.phase = .busy then 0 else bankGet b.R q
  | .s13 | .s14 | .s15 => 0

/-- What a write to a slot that the host owns in IDLE stores (R71, R72). Slots the host never owns are left alone. -/
def storeSlot (b : Regs) (slot : Slot) (v : Semi) : Regs :=
  match slot with
  | .klen => { b with KLEN := saturate v }
  | .dlen => { b with DLEN := saturate v }
  | .k q => { b with K := bankSet b.K q v }
  | .a => { b with A := v }
  | .r q => { b with R := bankSet b.R q v }
  | .cmd | .status | .s13 | .s14 | .s15 => b

/-- The write of a register that the host owns in IDLE, and only there (R71). -/
def hostStore (b : Regs) (slot : Slot) (v : Semi) : Regs :=
  if b.phase = .idle then storeSlot b slot v else reject b

/-- `HostWrite(idx, v)` (R71). -/
def hostWrite (b : Regs) (slot : Slot) (v : Semi) : Regs :=
  if b.phase = .busy then reject b
  else
    match slot with
    | .cmd => command v b
    | .status => reject b
    | .klen | .dlen | .k _ | .a | .r _ => hostStore b slot v
    | .s13 | .s14 | .s15 => reject b

/-! The engine. -/

/-- The engine's control state selects the micro-operation of this `sub` and `mode` (R97, R135). -/
def selected (b : Regs) (sub : Sub) (mode : Mode) : Bool := b.phase == .busy && b.sub == sub && b.mode == mode

/-- `CipherIssue`: a request is outstanding from here on. ISSUE changes only `sub` (R143, R157, R172). -/
def issue (b : Regs) : Regs := { b with sub := .wait }

/-- `NextW(n, j, i)` (R141). -/
def nextWrap (b : Regs) : Regs :=
  if b.i.toNat < b.n.toNat - 1 then { b with i := b.i + 1, sub := .issue }
  else if b.j.toNat < 5 then { b with j := b.j + 1, i := 0, sub := .issue }
  else { b with sub := .fin }

/-- `NextU(n, j, i)` (R142). -/
def nextUnwrap (b : Regs) : Regs :=
  if 0 < b.i.toNat then { b with i := b.i - 1, sub := .issue }
  else if 0 < b.j.toNat then { b with j := b.j - 1, i := BitVec.ofNat 2 (b.n.toNat - 1), sub := .issue }
  else { b with sub := .fin }

/-- What a W.RETIRE does with the response it consumes; `t` is that of the counters before the advance (R158). -/
def retireWrap (b : Regs) : Response → Regs
  | .ok block => nextWrap { b with A := msb64 block ^^^ counterWord b, R := bankSet b.R b.i (lsb64 block) }
  | .err code => raiseOutcome (.primitiveFailure code) b

/-- What a U.RETIRE does with the response it consumes (R173). -/
def retireUnwrap (b : Regs) : Response → Regs
  | .ok block => nextUnwrap { b with A := msb64 block, R := bankSet b.R b.i (lsb64 block) }
  | .err code => raiseOutcome (.primitiveFailure code) b

/-- The end of a wrap (R160). -/
def finishWrap (b : Regs) : Regs := leaveBusy { b with outcome := .ok, rlen := wrapResultLength b }

/-- The end of an unwrap: one whole 64-bit comparison with the ICV (R174, R177). -/
def finishUnwrap (b : Regs) : Regs :=
  if b.A = Config.icv then leaveBusy { b with outcome := .ok, rlen := unwrapResultLength b }
  else raiseOutcome .integrityFailure b

/-! The same operations on the machine's state. -/

/-- The state with the block's registers replaced. -/
def State.withRegs (s : State) (b : Regs) : State := { s with regs := b }

/-- The state after a RETIRE: the response is consumed in the step that reads it (R45, R195). -/
def State.retired (s : State) (b : Regs) : State := { s with regs := b, crsp := none }

/-- A host read: the block is unchanged, the value goes out on `rdata` (R66, R70). -/
def State.readSlot (s : State) (slot : Slot) : State := { s with rdata := hostRead s.regs slot }

/-- A host write (R71). -/
def State.writeSlot (s : State) (slot : Slot) (v : Semi) : State := s.withRegs (hostWrite s.regs slot v)

/-- A micro-operation that needs no response (ISSUE, FIN): it acts when the control state selects it; otherwise
the engine has no such step and nothing changes (R97): notes/assumptions/6.md. -/
def State.engineStep (s : State) (sub : Sub) (mode : Mode) (op : Regs → Regs) : State :=
  if selected s.regs sub mode then s.withRegs (op s.regs) else s

/-- A RETIRE: it acts when the control state selects it and the adapter has answered; otherwise it waits and
nothing changes (R97, R135, R147): notes/assumptions/6.md. -/
def State.retireStep (s : State) (mode : Mode) (op : Regs → Response → Regs) : State :=
  match s.crsp with
  | some r => if selected s.regs .wait mode then s.retired (op s.regs r) else s
  | none => s

/-- A response appears on the port: it is taken when a request is outstanding and not yet answered, and ignored
otherwise (R195, R196 (a)). -/
def State.takeResponse (s : State) (r : Response) : State :=
  if outstanding s.regs && s.crsp.isNone then { s with crsp := some r } else s

/-- Reset of the machine: the block takes its reset values and the outstanding request disappears, with any
response to it (R240, R241). What the other agents do next is not the block's, so `turns` and `rdata` stay. -/
def State.resetStep (s : State) : State := { s with regs := resetRegs s.regs, crsp := none }

end Sys2Proof.Machine
end

