-- ==== Sys2Proof/Machine/CipherPort.lean ====
section
/-! DEFINITION. The cipher adapter's step `C.RESPOND` (spec/44_cipher_port.md rules R194 to R196). -/

namespace Sys2Proof.Machine

/-- `C.RESPOND`: the response of the CRSP word appears on the port. It changes no register of the block; it enables
the selected RETIRE (R195). With no request outstanding, or one already answered, it is ignored (R196 (a)). -/
def execCRespond (err : BitVec 1) (code : BitVec 16) (block : Block128) (s : State) :
    Host.Outcome State Fault Refusal :=
  .next (s.takeResponse (responseOf err code block))

end Sys2Proof.Machine
end

