-- ==== Sys2Proof/Machine/Commands.lean ====
section
/-! DEFINITION. The host's commands: writes of the values 0 to 3 to slot 0 (spec/40_commands.md rules R110 to R122). -/

namespace Sys2Proof.Machine

/-- `NOP`: accepted in IDLE and DONE with no effect, refused in BUSY (R111). -/
def execNop (s : State) : Host.Outcome State Fault Refusal := .next (s.writeSlot .cmd 0)

/-- `WRAP`: `Start(WRAP)` in IDLE, refused in BUSY and DONE (R112, R118, R119). -/
def execWrap (s : State) : Host.Outcome State Fault Refusal := .next (s.writeSlot .cmd 1)

/-- `UNWRAP`: `Start(UNWRAP)` in IDLE, refused in BUSY and DONE (R112, R118, R120). -/
def execUnwrap (s : State) : Host.Outcome State Fault Refusal := .next (s.writeSlot .cmd 2)

/-- `CLEAR`: zeroizes everything in IDLE and DONE, refused in BUSY (R122). -/
def execClear (s : State) : Host.Outcome State Fault Refusal := .next (s.writeSlot .cmd 3)

end Sys2Proof.Machine
end

