-- ==== Sys2Proof/Machine/HostPort.lean ====
section
/-! DEFINITION. The host's register accesses `RD` and `WR` (spec/20_memory.md rules R70, R71). -/

namespace Sys2Proof.Machine

/-- `RD`: a host read; never refused, no side effect on the block (R70). -/
def execRd (slot : Slot) (s : State) : Host.Outcome State Fault Refusal := .next (s.readSlot slot)

/-- `WR`: a host write (R71). With slot 0 it carries an illegal command word, which the same rule refuses (R98, R110). -/
def execWr (slot : Slot) (wdata : Semi) (s : State) : Host.Outcome State Fault Refusal :=
  .next (s.writeSlot slot wdata)

end Sys2Proof.Machine
end

