-- ==== Sys2Proof/Machine/Platform.lean ====
section
/-! DEFINITION. The platform's one operation, `RESET` (spec/70_reset_and_hazards.md rules R240, R241). -/

namespace Sys2Proof.Machine

/-- `RESET`: accepted in every phase, BUSY included (R240, R241). -/
def execReset (s : State) : Host.Outcome State Fault Refusal := .next s.resetStep

end Sys2Proof.Machine
end

