-- ==== Sys2Proof/Machine/Unwrap.lean ====
section
/-! DEFINITION. The unwrap engine's micro-operations (spec/43_unwrap.md rules R172, R173, R174). -/

namespace Sys2Proof.Machine

/-- `U.ISSUE`: the request of `requestFields` is outstanding from here on; `A` keeps its value (R172). -/
def execUIssue (s : State) : Host.Outcome State Fault Refusal := .next (s.engineStep .issue .unwrap issue)

/-- `U.RETIRE` (R173). -/
def execURetire (s : State) : Host.Outcome State Fault Refusal := .next (s.retireStep .unwrap retireUnwrap)

/-- `U.FIN` (R174). -/
def execUFin (s : State) : Host.Outcome State Fault Refusal := .next (s.engineStep .fin .unwrap finishUnwrap)

end Sys2Proof.Machine
end

