-- ==== Sys2Proof/Machine/Wrap.lean ====
section
/-! DEFINITION. The wrap engine's micro-operations (spec/42_wrap.md rules R157, R158, R160). -/

namespace Sys2Proof.Machine

/-- `W.ISSUE`: the request of `requestFields` is outstanding from here on (R157). -/
def execWIssue (s : State) : Host.Outcome State Fault Refusal := .next (s.engineStep .issue .wrap issue)

/-- `W.RETIRE` (R158). -/
def execWRetire (s : State) : Host.Outcome State Fault Refusal := .next (s.retireStep .wrap retireWrap)

/-- `W.FIN` (R160). -/
def execWFin (s : State) : Host.Outcome State Fault Refusal := .next (s.engineStep .fin .wrap finishWrap)

end Sys2Proof.Machine
end

