-- ==== Sys2Proof/Machine/Dispatch.lean ====
section
/-! DEFINITION. One arm per operation (spec/30_encoding.md rule R96). -/

namespace Sys2Proof.Machine

def exec (i : Instr) (s : State) : Host.Outcome State Fault Refusal :=
  match i with
  | .rd slot => Sys2Proof.Machine.execRd slot s
  | .wr slot wdata => Sys2Proof.Machine.execWr slot wdata s
  | .nop => Sys2Proof.Machine.execNop s
  | .wrap => Sys2Proof.Machine.execWrap s
  | .unwrap => Sys2Proof.Machine.execUnwrap s
  | .clear => Sys2Proof.Machine.execClear s
  | .wIssue => Sys2Proof.Machine.execWIssue s
  | .wRetire => Sys2Proof.Machine.execWRetire s
  | .wFin => Sys2Proof.Machine.execWFin s
  | .uIssue => Sys2Proof.Machine.execUIssue s
  | .uRetire => Sys2Proof.Machine.execURetire s
  | .uFin => Sys2Proof.Machine.execUFin s
  | .cRespond err code block => Sys2Proof.Machine.execCRespond err code block s
  | .reset => Sys2Proof.Machine.execReset s

end Sys2Proof.Machine
end

