-- ==== Sys2Proof/Machine/Fetch.lean ====
section
/-! DEFINITION. Which operation comes next: the word the next turn puts on its port, decoded
(spec/00_scope.md rule R14; spec/30_encoding.md rules R96, R97). The block fetches no program (spec/10_state.md rule R29). -/

namespace Sys2Proof.Machine

/-- The next turn. When no turn is given the outside world is silent and the engine, which is always ready to
take its enabled step, moves (R249): notes/assumptions/1.md. -/
def nextTurn (s : State) : Turn :=
  match s.turns with
  | [] => .engine
  | t :: _ => t

/-- The state with the next turn used up. -/
def State.advance (s : State) : State := { s with turns := s.turns.tail }

/-- The word on the port of the agent whose turn it is; none when the adapter is to answer and no request is
outstanding (R195). -/
def fetchWord (c : Cipher) (s : State) : Option Encoded :=
  match nextTurn s with
  | .host w => some (.hostx w)
  | .engine => some (.ustate (ustate s.regs))
  | .answer => (cipherRequest s.regs).map fun q => .crsp (responseWord (c q))
  | .respond w => some (.crsp w)
  | .rst => some .rst

/-- The operation of the next turn; none when the agent whose turn it is has no step. -/
def fetch (c : Cipher) (s : State) : Option Instr :=
  match fetchWord c s with
  | some e => (decode e).toOption
  | none => none

/-! Placing one word where `fetch` reads it next, used by `State.withFetchWord` (Machine/Step.lean). -/

/-- A turn put before the others. -/
def State.pushTurn (s : State) (t : Turn) : State := { s with turns := t :: s.turns }

/-- The phase a 2-bit code names; none for 3 (R30). -/
def phaseOfCode (c : BitVec 2) : Option Phase :=
  match c.toNat with
  | 0 => some .idle
  | 1 => some .busy
  | 2 => some .done
  | _ => none

/-- The sub-state a 2-bit code names; none for 3 (R31). -/
def subOfCode (c : BitVec 2) : Option Sub :=
  match c.toNat with
  | 0 => some .issue
  | 1 => some .wait
  | 2 => some .fin
  | _ => none

/-- The mode a 1-bit code names (R32). -/
def modeOfCode (c : BitVec 1) : Mode := if c = 0#1 then .wrap else .unwrap

/-- The registers with the control state a USTATE word names; as they are for a word that names none (R92). -/
def placeUstate (b : Regs) (w : BitVec 5) : Regs :=
  match phaseOfCode (w.extractLsb' 3 2), subOfCode (w.extractLsb' 1 2) with
  | some p, some u => { b with phase := p, sub := u, mode := modeOfCode (w.extractLsb' 0 1) }
  | _, _ => b

/-- The state in which the next turn carries this word and the operation it names is enabled (R96, R97): a USTATE word
becomes the control state, a RETIRE finds a response, a CRSP word finds an unanswered request: notes/assumptions/10.md. -/
def State.place (s : State) : Encoded → State
  | .hostx w => s.pushTurn (.host w)
  | .cmd v => s.pushTurn (.host (hostxWord 1 .cmd v))
  | .ustate w =>
    let b := placeUstate s.regs w
    let r := if outstanding b && s.crsp.isNone then some (Response.ok 0) else s.crsp
    { s with regs := b, crsp := r, turns := .engine :: s.turns }
  | .crsp w =>
    { s with regs := { s.regs with phase := .busy, sub := .wait }, crsp := none, turns := .respond w :: s.turns }
  | .rst => s.pushTurn .rst

end Sys2Proof.Machine
end

