-- ==== Sys2Proof/Machine/Step.lean ====
section
/-! DEFINITION. One step of the machine: the next turn's operation (spec/00_scope.md rule R14). -/

namespace Sys2Proof.Machine

/-- One step with the cipher as an argument (R13). A turn whose agent has no step changes nothing but itself. -/
def stepWith (c : Cipher) (s : State) : Host.Outcome State Fault Refusal :=
  match fetch c s with
  | some i => exec i s.advance
  | none => .next s.advance

/-- One step, the cipher being the adapter's (P1 of spec/92_eei_decisions.md). -/
def step : State → Host.Outcome State Fault Refusal := stepWith Config.cipher

/-- `s` with the instruction of a row of spec/opcode_table.json placed so that the next step fetches and runs it. -/
def State.withFetchWord (s : State) (nbits w : Nat) : State :=
  match tableFormat nbits w with
  | some e => s.place e
  | none => s

end Sys2Proof.Machine
end

