-- ==== Sys2Proof/Machine/Script.lean ====
section
/-! DEFINITION. The host's side of the port as a program: script lines and pseudo-operations, the polling loop, and the two
calls `wrapKey` and `unwrapKey` with what they return (spec/30_encoding.md rules R88 to R90, R100 to R105;
spec/20_memory.md rules R60, R66). A line is a turn of the host; what the host does next may depend on what it has read. -/

namespace Sys2Proof.Machine

/-- Semiblock `k` of a byte string, first byte most significant; a last partial semiblock is padded with zero bytes
on the right (R60, R101). -/
def semiblock (bytes : List Byte) (k : Nat) : Semi :=
  (List.range 8).foldl (fun acc b => (acc <<< 8) ||| (bytes.getD (8 * k + b) 0).setWidth 64) 0

/-- The eight bytes of a semiblock, first byte first (R60, R88). -/
def semiblockBytes (v : Semi) : List Byte := (List.range 8).map fun b => v.extractLsb' (56 - 8 * b) 8

/-- The byte string of a list of semiblocks (R89, R101). -/
def concatBytes (vs : List Semi) : List Byte := vs.flatMap semiblockBytes

/-- `WR <reg>, <value>` (R100). -/
def wrLine (slot : Slot) (v : Semi) : Turn := .host (hostxWord 1 slot v)

/-- `RD <reg>` (R100). -/
def rdLine (slot : Slot) : Turn := .host (hostxWord 0 slot 0)

/-- `NOP` (R101). -/
def nopLine : Turn := wrLine .cmd 0

/-- `WRAP` (R101). -/
def wrapLine : Turn := wrLine .cmd 1

/-- `UNWRAP` (R101). -/
def unwrapLine : Turn := wrLine .cmd 2

/-- `CLEAR` (R101). -/
def clearLine : Turn := wrLine .cmd 3

/-- The value that declares the length of a byte string: the length itself, and the greatest 64-bit value for a longer
string, never the length modulo 2^64 (R27, R101, D7 of spec/92_eei_decisions.md). DEDUCED: notes/assumptions/19.md. -/
def lengthWord (bytes : List Byte) : Semi := BitVec.ofNat 64 (min bytes.length (2 ^ 64 - 1))

/-- How many semiblocks of a byte string are loaded: `ceil(L/8)`, clipped (R101). -/
def loadedSemiblocks (bytes : List Byte) (most : Nat) : Nat := min ((bytes.length + 7) / 8) most

/-- `LOADKEK <hex bytes>` (R101). -/
def loadKek (kek : List Byte) : List Turn :=
  wrLine .klen (lengthWord kek) ::
    (List.range (loadedSemiblocks kek 4)).map fun k => wrLine (.k (BitVec.ofNat 2 k)) (semiblock kek k)

/-- `LOADKEY <hex bytes>` (R101). -/
def loadKey (p : List Byte) : List Turn :=
  wrLine .dlen (lengthWord p) ::
    (List.range (loadedSemiblocks p 4)).map fun k => wrLine (.r (BitVec.ofNat 2 k)) (semiblock p k)

/-- `LOADWRAPPED <hex bytes>` (R101). -/
def loadWrapped (c : List Byte) : List Turn :=
  wrLine .dlen (lengthWord c) :: wrLine .a (semiblock c 0) ::
    (List.range (loadedSemiblocks c 5 - 1)).map fun k => wrLine (.r (BitVec.ofNat 2 k)) (semiblock c (k + 1))

/-! The host reading as it goes. Between two of its transactions the other parties may take any turns, so a script is run
over a list of gaps, one for each transaction to come: notes/assumptions/17.md. -/

/-- The machine's state, and for each transaction that the host may still make, the turns the other parties take
before it (R14). -/
structure Session where
  /-- the machine -/
  state : State
  /-- the others' turns before the host's next transaction, before the one after it, and so on -/
  gaps : List (List Turn)
deriving DecidableEq, Repr

/-- The state after this one turn, whatever turns the state held. -/
def State.take (c : Cipher) (s : State) (t : Turn) : Option State :=
  match stepWith c { s with turns := [t] } with
  | .next u => some u
  | .fault _ => none
  | .refused _ => none

/-- The state after these turns. -/
def State.takeAll (c : Cipher) (s : State) : List Turn → Option State
  | [] => some s
  | t :: ts => (s.take c t).bind fun u => u.takeAll c ts

/-- One line: the others' turns, then the host's transaction; the answer is the `rdata` that the host then sees
(R66, R100). None when the host gets no further turn. -/
def transact (c : Cipher) (line : Turn) (x : Session) : Option (Semi × Session) :=
  match x.gaps with
  | [] => none
  | g :: gs => (x.state.takeAll c (g ++ [line])).map fun u => (u.rdata, { state := u, gaps := gs })

/-- Lines in order, with the value seen after each (R100). -/
def transactAll (c : Cipher) : List Turn → Session → Option (List Semi × Session)
  | [], x => some ([], x)
  | line :: lines, x =>
    (transact c line x).bind fun (v, y) => (transactAll c lines y).map fun (vs, z) => (v :: vs, z)

/-! The fields of a STATUS value as the host takes them apart (R42). -/

/-- `s.OUTCOME` -/
def statusOutcome (status : Semi) : BitVec 3 := status.extractLsb' 4 3

/-- `s.RLEN` -/
def statusRlen (status : Semi) : BitVec 8 := status.extractLsb' 8 8

/-- `s.PERR` -/
def statusPerr (status : Semi) : BitVec 16 := status.extractLsb' 16 16

/-- The value at which `POLL` stops: the phase read is not BUSY (R101). -/
def pollEnds (status : Semi) : Bool := status.extractLsb' 0 2 != 1#2

/-- `POLL`: read STATUS until the value read ends it; the last value read is the result (R101, R102). It reads once for
each gap it is given and at least once; none when the host gets no further turn while BUSY is still read. -/
def poll (c : Cipher) (s : State) : List (List Turn) → Option (Semi × Session)
  | [] => none
  | g :: gs =>
    match s.takeAll c (g ++ [rdLine .status]) with
    | none => none
    | some u => if pollEnds u.rdata then some (u.rdata, { state := u, gaps := gs }) else poll c u gs

/-- `RD R0` to `RD R<n-1>` (R101). The array has no element beyond `R3`; that the index is taken modulo 4 there is a
DESIGN CHOICE: notes/assumptions/20.md. -/
def readArrayLines (n : Nat) : List Turn := (List.range n).map fun k => rdLine (.r (BitVec.ofNat 2 k))

/-- The lines of `READWRAPPED`, with `n = RLEN/8 - 1` (R101). That `n` is 0 for an `RLEN` below 8, so that only `A` is
read, and what an `n` above 4 reads, are DESIGN CHOICES: notes/assumptions/20.md. -/
def readWrappedLines (rlen : BitVec 8) : List Turn := rdLine .a :: readArrayLines (rlen.toNat / 8 - 1)

/-- The lines of `READKEY`, with `n = RLEN/8` (R101). What an `RLEN` above 32 reads is a DESIGN CHOICE:
notes/assumptions/20.md. -/
def readKeyLines (rlen : BitVec 8) : List Turn := readArrayLines (rlen.toNat / 8)

/-- Lines that read, with the concatenation of the values read as the result (R101). -/
def readBytes (c : Cipher) (lines : List Turn) (x : Session) : Option (List Byte × Session) :=
  (transactAll c lines x).map fun (vs, y) => (concatBytes vs, y)

/-- `READWRAPPED` with its result (R101). -/
def readWrapped (c : Cipher) (rlen : BitVec 8) (x : Session) : Option (List Byte × Session) :=
  readBytes c (readWrappedLines rlen) x

/-- `READKEY` with its result (R101). -/
def readKey (c : Cipher) (rlen : BitVec 8) (x : Session) : Option (List Byte × Session) :=
  readBytes c (readKeyLines rlen) x

/-! The two calls of the source (R104, R105). -/

/-- How a call ends (R104, R105). -/
inductive CallResult where
  /-- fail `InvalidKekLength` -/
  | invalidKekLength
  /-- fail `InvalidKeyLength` -/
  | invalidKeyLength
  /-- fail `InvalidWrappedKeyLength` -/
  | invalidWrappedKeyLength
  /-- the adapter's code, propagated unchanged -/
  | primitiveError (code : BitVec 16)
  /-- the "no value" outcome (null) -/
  | noValue
  /-- success, with the bytes returned -/
  | bytes (result : List Byte)
  /-- the script tests for none of the outcome's values that was read -/
  | other
deriving DecidableEq, Repr

/-- The lines of `wrapKey` up to its POLL (R104). -/
def wrapKeyStart (kek p : List Byte) : List Turn := loadKek kek ++ loadKey p ++ [wrapLine]

/-- The lines of `unwrapKey` up to its POLL (R105). -/
def unwrapKeyStart (kek c : List Byte) : List Turn := loadKek kek ++ loadWrapped c ++ [unwrapLine]

/-- What `wrapKey` makes of the polled value, reading the result out where there is one (R104; the outcome's numbers are
those of R38). -/
def wrapKeyResult (c : Cipher) (status : Semi) (x : Session) : Option (CallResult × Session) :=
  match (statusOutcome status).toNat with
  | 1 => (readWrapped c (statusRlen status) x).map fun (bs, y) => (.bytes bs, y)
  | 3 => some (.invalidKekLength, x)
  | 4 => some (.invalidKeyLength, x)
  | 6 => some (.primitiveError (statusPerr status), x)
  | _ => some (.other, x)

/-- What `unwrapKey` makes of the polled value (R105, R38). -/
def unwrapKeyResult (c : Cipher) (status : Semi) (x : Session) : Option (CallResult × Session) :=
  match (statusOutcome status).toNat with
  | 1 => (readKey c (statusRlen status) x).map fun (bs, y) => (.bytes bs, y)
  | 2 => some (.noValue, x)
  | 3 => some (.invalidKekLength, x)
  | 5 => some (.invalidWrappedKeyLength, x)
  | 6 => some (.primitiveError (statusPerr status), x)
  | _ => some (.other, x)

/-- A call: its first lines, POLL, what it makes of the polled value, and CLEAR (R104, R105). -/
def call (c : Cipher) (lines : List Turn) (result : Semi → Session → Option (CallResult × Session)) (x : Session) :
    Option (CallResult × Session) :=
  (transactAll c lines x).bind fun (_, y) =>
  (poll c y.state y.gaps).bind fun (status, z) =>
  (result status z).bind fun (r, z') =>
  (transact c clearLine z').map fun (_, e) => (r, e)

/-- `wrapKey(plaintextKey, kek)` (R104). -/
def wrapKey (c : Cipher) (kek p : List Byte) (x : Session) : Option (CallResult × Session) :=
  call c (wrapKeyStart kek p) (wrapKeyResult c) x

/-- `unwrapKey(wrappedKey, kek)` (R105). -/
def unwrapKey (c : Cipher) (kek w : List Byte) (x : Session) : Option (CallResult × Session) :=
  call c (unwrapKeyStart kek w) (unwrapKeyResult c) x

end Sys2Proof.Machine
end

