-- ==== Sys2Proof/Machine/Transform.lean ====
section
/-! DEFINITION. The whole transforms as functions, for a cipher that never errs: `Wrap` (spec/42_wrap.md rule R163),
`Unwrap` (spec/43_unwrap.md rule R180) and the schedule both follow (spec/41_schedule.md rules R136, R150). -/

namespace Sys2Proof.Machine

/-- The data an operation works on: the accumulator and the register array (R2). -/
structure Work where
  A : Semi
  R : Quad
deriving DecidableEq, Repr

/-- The steps `(j, i)` in wrap's order; unwrap's is the reverse (R136, R146, R150). -/
def schedule (n : Nat) : List (Nat × Nat) :=
  (List.range Config.rounds).flatMap fun j => (List.range n).map fun i => (j, i)

/-- `zext_64(t)` of the step `(j, i)` (R137). -/
def stepWord (n : Nat) (p : Nat × Nat) : Semi := BitVec.ofNat 64 (stepCounter n p.1 p.2)

/-- One pass through the body of `Wrap`'s inner loop (R163). For `n` above 4, which no operation has, the element index is
taken modulo 4, a DESIGN CHOICE: notes/assumptions/21.md. -/
def wrapStep (enc : Block128 → Block128) (n : Nat) (w : Work) (p : Nat × Nat) : Work :=
  let i := BitVec.ofNat 2 p.2
  let b := enc (w.A ++ bankGet w.R i)
  { A := msb64 b ^^^ stepWord n p, R := bankSet w.R i (lsb64 b) }

/-- `Wrap(kek, P[0..n-1])`: the accumulator and the array at the end (R163). -/
def wrapTransform (enc : Block128 → Block128) (n : Nat) (p : Quad) : Work :=
  (schedule n).foldl (wrapStep enc n) { A := Config.icv, R := p }

/-- One pass through the body of `Unwrap`'s inner loop (R180). For `n` above 4, which no operation has, the element index is
taken modulo 4, a DESIGN CHOICE: notes/assumptions/21.md. -/
def unwrapStep (dec : Block128 → Block128) (n : Nat) (w : Work) (p : Nat × Nat) : Work :=
  let i := BitVec.ofNat 2 p.2
  let b := dec ((w.A ^^^ stepWord n p) ++ bankGet w.R i)
  { A := msb64 b, R := bankSet w.R i (lsb64 b) }

/-- The loops of `Unwrap`, before its final comparison (R180). -/
def unwrapLoops (dec : Block128 → Block128) (n : Nat) (c : Work) : Work :=
  (schedule n).reverse.foldl (unwrapStep dec n) c

/-- `Unwrap(kek, C[0..n])`: the plaintext key, or none for an integrity failure (R180). -/
def unwrapTransform (dec : Block128 → Block128) (n : Nat) (c : Work) : Option Quad :=
  let w := unwrapLoops dec n c
  if w.A = Config.icv then some w.R else none

end Sys2Proof.Machine
end

