-- ==== Sys2Proof/Safety.lean ====
section
/-! DEFINITION. The terms the claims use: the invariants of the sequencing and status state, what the host can see, the
machine over any cipher, and the turn lists that runs are stated over. -/

namespace Sys2Proof.Machine

/-! Invariants of the block's registers. -/

/-- R37 (a): outside BUSY the counters and the sub-state are zero. -/
abbrev Regs.countersRest (b : Regs) : Prop := b.phase ≠ .busy → b.sub = .issue ∧ b.j = 0 ∧ b.i = 0

/-- R37 (b): in BUSY the counters are in range and the lengths fit `n` (the range of `sub` is its type). -/
abbrev Regs.busyRanges (b : Regs) : Prop :=
  b.phase = .busy →
    (b.n = 2 ∨ b.n = 3 ∨ b.n = 4) ∧ b.j.toNat ≤ 5 ∧ b.i.toNat ≤ b.n.toNat - 1 ∧
    b.KLEN.toNat = 8 * b.n.toNat ∧
    (b.mode = .wrap → b.DLEN.toNat = 8 * b.n.toNat) ∧ (b.mode = .unwrap → b.DLEN.toNat = 8 * b.n.toNat + 8)

/-- R37 (c): FIN is reached at the last step only. -/
abbrev Regs.finCounters (b : Regs) : Prop :=
  b.phase = .busy → b.sub = .fin →
    (b.mode = .wrap → b.j = 5 ∧ b.i.toNat = b.n.toNat - 1) ∧ (b.mode = .unwrap → b.j = 0 ∧ b.i = 0)

/-- R37 (d): in IDLE there is no result. -/
abbrev Regs.idleNoResult (b : Regs) : Prop := b.phase = .idle → b.rlen = 0

/-- R37 (e): which outcomes go with which phase. -/
abbrev Regs.phaseOutcome (b : Regs) : Prop :=
  (b.phase = .done → b.outcome = .ok ∨ b.outcome = .integrityFail ∨ b.outcome = .primitiveErr) ∧
  (b.phase = .busy → b.outcome = .none) ∧
  (b.phase = .idle → b.outcome = .none ∨ b.outcome = .invalidKekLen ∨ b.outcome = .invalidKeyLen ∨
    b.outcome = .invalidWrappedLen)

/-- The invariants of the sequencing state, R37 (a) to (e). -/
abbrev Regs.seqInv (b : Regs) : Prop :=
  b.countersRest ∧ b.busyRanges ∧ b.finCounters ∧ b.idleNoResult ∧ b.phaseOutcome

/-- What the status registers say of the data: the result length fits the outcome, an error code is held only with
PRIMITIVE_ERR, and an operation that ended without success leaves no data (R40, R41, R49, R221). -/
abbrev Regs.statusInv (b : Regs) : Prop :=
  (b.outcome ≠ .primitiveErr → b.perr = 0) ∧
  (b.outcome ≠ .ok → b.rlen = 0) ∧
  (b.phase = .done → b.outcome ≠ .ok → b.A = 0 ∧ b.R = bankZero) ∧
  (b.phase = .done → b.outcome = .ok → b.mode = .wrap → b.rlen = b.DLEN + 8) ∧
  (b.phase = .done → b.outcome = .ok → b.mode = .unwrap → b.rlen = b.DLEN - 8 ∧ b.A = Config.icv) ∧
  (b.outcome = .integrityFail → b.mode = .unwrap)

/-- A response is held only while a request is outstanding (R45, R196 (a)). -/
abbrev State.portInv (s : State) : Prop := s.crsp ≠ none → outstanding s.regs = true

/-! What the host can see, and what it must not. -/

/-- Two blocks that no host read and no output tells apart (R44, R47, R70). -/
def sameHostView (b b' : Regs) : Prop := (∀ slot, hostRead b slot = hostRead b' slot) ∧ doneO b = doneO b'

/-- The registers with `rej` cleared: what refused host writes do not reach (R216). -/
def Regs.noRej (b : Regs) : Regs := { b with rej := false }

/-! The machine over any cipher. -/

/-- The machine with the cipher as an argument (R13); `Sys2Proof.core` is the one with the adapter's. -/
def coreWith (c : Cipher) : Host.Core :=
  { State := State, Fault := Fault, Refusal := Refusal, step := stepWith c, reset := State.reset }

/-- A cipher that never errs (R163, R180). -/
def totalCipher (f : Request → Block128) : Cipher := fun q => .ok (f q)

/-- The block function that a cipher is for the KEK an operation holds (R163, R180). -/
def underKek (f : Request → Block128) (d : Dir) (b : Regs) : Block128 → Block128 :=
  fun x => f { dir := d, ksz := keySize b.KLEN, key := keyBus b.K b.KLEN, block := x }

/-- The state with a given list of turns to come. -/
def State.withTurns (s : State) (ts : List Turn) : State := { s with turns := ts }

/-! Turn lists. -/

/-- The turns of an operation that runs to its end: ISSUE, C.RESPOND, RETIRE `6n` times, then FIN (R96, R136). -/
def operationTurns (n : Nat) : List Turn :=
  (List.replicate (6 * n) [Turn.engine, Turn.answer, Turn.engine]).flatten ++ [Turn.engine]

/-- `k` rounds in which engine and adapter alternate (R249). -/
def fairTurns (k : Nat) : List Turn := (List.replicate k [Turn.engine, Turn.answer]).flatten

/-- A host read (R86). -/
def isRead : Turn → Bool
  | .host w => w.extractLsb' 68 1 == 0#1
  | .engine | .answer | .respond _ | .rst => false

/-- A turn that neither ends the call nor breaks the adapter's duty: the engine, the adapter, and every host
transaction but CLEAR (R148, R216, R249). -/
def isQuiet : Turn → Bool
  | .host w => w != hostxWord 1 .cmd 3
  | .engine | .answer => true
  | .respond _ | .rst => false

/-- A turn while the adapter is silent: the engine, and any host transaction (R147). -/
def isSilent : Turn → Bool
  | .host _ | .engine => true
  | .answer | .respond _ | .rst => false

/-- A round of a fair schedule: quiet turns in any order and number, an engine turn and an adapter turn among them
(R147, R249). -/
def fairRound (r : List Turn) : Prop := .engine ∈ r ∧ .answer ∈ r ∧ ∀ x ∈ r, isQuiet x = true

end Sys2Proof.Machine
end

