-- ==== Sys2Proof/Certificates/Slice0/Obligations.lean ====
section
/-! DEFINITION. The statements for the provers. Each docstring names the rules of spec/ it formalises. -/

open Sys2Proof Sys2Proof.Machine

/-! Encodings. -/

/-- Decode and encode agree: the word of a well-formed operation decodes to that operation, with every operand at
every value (R86, R87, R92, R96, R97, R194). -/
def Obligations.EncodeThenDecode : Prop := ∀ i : Instr, i.wellFormed = true → decode (encode i) = .ok i

/-- Every 69-bit transaction is a well-formed host operation; a write is given back bit for bit by the encoder, and a
read is the read of its slot, its data field ignored (R86, R96). That a write of an illegal command word to slot 0 is a
well-formed `WR` is the model's choice, for no row of R96 and no meaning of R98 names it: notes/assumptions/8.md. -/
def Obligations.HostxWordsAllDecode : Prop :=
  ∀ w : BitVec 69,
    (decodeHostx w).wellFormed = true ∧
    (w.extractLsb' 68 1 = 1#1 → encodeHostx (decodeHostx w) = some w) ∧
    (w.extractLsb' 68 1 = 0#1 → decodeHostx w = .rd (slotOfIdx (w.extractLsb' 64 4)))

/-- Every 145-bit response word is a `C.RESPOND` whose encoding is the word; `err = 0` stands for `Ok(block)` and
`err = 1` for `Err(code)`, the other field not read (R194). -/
def Obligations.CrspWordsAllDecode : Prop :=
  (∀ w : BitVec 145, ∃ e c b, decode (.crsp w) = .ok (.cRespond e c b) ∧ encode (.cRespond e c b) = .crsp w) ∧
  (∀ c b, responseOf 0 c b = .ok b) ∧ (∀ c b, responseOf 1 c b = .err c)

/-- The request word is `dir ‖ ksz ‖ key ‖ block`, each field at R191's bit positions. -/
def Obligations.RequestWordHoldsItsFields : Prop :=
  ∀ q : Request,
    (requestWord q).extractLsb' 386 1 = (match q.dir with | .enc => 0#1 | .dec => 1#1) ∧
    (requestWord q).extractLsb' 384 2 = q.ksz ∧
    (requestWord q).extractLsb' 128 256 = q.key ∧
    (requestWord q).extractLsb' 0 128 = q.block

/-- The slot map, all sixteen indices, and words written out from the encoding tables, which decode to the operations they
stand for (R68, R86, R87, R97, R194; the host words are those of spec/95_test_vectors.md section 7). -/
def Obligations.SampleWordsDecode : Prop :=
  (List.range 16).map (fun k => slotOfIdx (BitVec.ofNat 4 k)) =
    [.cmd, .status, .klen, .dlen, .k 0, .k 1, .k 2, .k 3, .a, .r 0, .r 1, .r 2, .r 3, .s13, .s14, .s15] ∧
  decode (.hostx 0x120000000000000010#69) = .ok (.wr .klen 0x10) ∧
  decode (.hostx 0x1A8899AABBCCDDEEFF#69) = .ok (.wr (.r 1) 0x8899AABBCCDDEEFF) ∧
  decode (.hostx 0x080000000000000000#69) = .ok (.rd .a) ∧
  decode (.hostx 0x100000000000000002#69) = .ok .unwrap ∧
  decode (.cmd 3) = .ok .clear ∧
  decode (.cmd 4) = .error .illegalCommandWord ∧
  decode (.ustate 0b01010#5) = .ok .wRetire ∧
  decode (.ustate 0b01101#5) = .ok .uFin ∧
  decode (.ustate 0b10000#5) = .error .noEngineStep ∧
  decode (.crsp (1#1 ++ 0xBEEF#16 ++ 0#128)) = .ok (.cRespond 1 0xBEEF 0)

/-! The step. -/

/-- On the engine's turn the operation is the one R97 gives for `(phase, sub, mode)`: a micro-operation in BUSY, none in
IDLE and DONE. -/
def Obligations.EngineTurnSelectsByControlState : Prop :=
  ∀ (c : Cipher) (s : State), nextTurn s = .engine →
    (s.regs.phase ≠ .busy → fetch c s = none) ∧
    (s.regs.phase = .busy → fetch c s = some (match s.regs.sub, s.regs.mode with
      | .issue, .wrap => .wIssue
      | .issue, .unwrap => .uIssue
      | .wait, .wrap => .wRetire
      | .wait, .unwrap => .uRetire
      | .fin, .wrap => .wFin
      | .fin, .unwrap => .uFin))

/-- A step runs the decoded operation: when the word on the port of the agent whose turn it is decodes to `i`, `i` is
well formed and the step is `exec i` on the state with that turn used up (how turns are given is the model's
choice: notes/assumptions/1.md). -/
def Obligations.StepRunsTheDecodedOperation : Prop :=
  ∀ (s : State) (e : Encoded) (i : Instr), fetchWord Config.cipher s = some e → decode e = .ok i →
    i.wellFormed = true ∧ step s = exec i { s with turns := s.turns.tail }

/-- Every operation in every state, and every step from every state, answers a next state. The rules say that no reachable
state lacks a rule and that every host access has a defined effect (R215, R246). That nothing stops the model is DEDUCED
from them, notes/assumptions/14.md; the answer in unreachable states is notes/assumptions/7.md's, that of a
micro-operation which R97 does not select notes/assumptions/6.md's. -/
def Obligations.EveryStepAnswersNext : Prop :=
  (∀ (i : Instr) (s : State), ∃ t, exec i s = .next t) ∧ ∀ s : State, ∃ t, step s = .next t

/-- A turn whose agent has no step changes nothing but itself: the engine outside BUSY, the engine that waits for a
response, the adapter with no request outstanding, the adapter whose request is already answered (R97, R135, R195; that the
turn is used up is the model's choice: notes/assumptions/1.md, notes/assumptions/6.md; that a response is held until it is
consumed notes/assumptions/3.md). -/
def Obligations.TurnWithoutAStepIsIdle : Prop :=
  ∀ s : State,
    (nextTurn s = .engine ∧ s.regs.phase ≠ .busy) ∨
    (nextTurn s = .engine ∧ s.regs.sub = .wait ∧ s.crsp = none) ∨
    (nextTurn s = .answer ∧ outstanding s.regs = false) ∨
    (nextTurn s = .answer ∧ s.crsp ≠ none) →
    step s = .next { s with turns := s.turns.tail }

/-! Reset and CLEAR. -/

/-- Reset leaves every line of R48's table, from any state. -/
def Obligations.ResetLeavesTheTable : Prop :=
  (∀ s : State, ∃ t, exec .reset s = .next t ∧ t.regs = State.reset.regs ∧ outstanding t.regs = false) ∧
  State.reset.regs =
    { A := 0, R := ⟨0, 0, 0, 0⟩, K := ⟨0, 0, 0, 0⟩, KLEN := 0, DLEN := 0, phase := .idle, sub := .issue,
      mode := .wrap, n := 0, j := 0, i := 0, outcome := .none, rej := false, rlen := 0, perr := 0 } ∧
  subCode State.reset.regs.sub = 0 ∧ doneO State.reset.regs = false ∧ statusView State.reset.regs = 0 ∧
  outstanding State.reset.regs = false

/-- RESET is accepted in every phase and the outstanding request disappears with any response to it (R240, R241); the
turns to come and the last value read are not the block's and stay (the model's choice: notes/assumptions/5.md). -/
def Obligations.ResetActsInEveryPhase : Prop :=
  ∀ s : State, exec .reset s = .next { s with regs := Regs.reset, crsp := none } ∧
    cipherRequest Regs.reset = none

/-- CLEAR in IDLE and DONE leaves the reset registers; in BUSY it is refused (R122, R240). -/
def Obligations.ClearReturnsToReset : Prop :=
  ∀ s : State,
    (s.regs.phase ≠ .busy → exec .clear s = .next { s with regs := Regs.reset }) ∧
    (s.regs.phase = .busy → exec .clear s = .next { s with regs := { s.regs with rej := true } })

/-! The host port. -/

/-- `HostRead`, slot by slot: the value goes out on `rdata` and nothing of the block changes (R70). -/
def Obligations.HostReadReturnsTheSlot : Prop :=
  ∀ s : State,
    exec (.rd .cmd) s = .next { s with rdata := 0 } ∧
    exec (.rd .status) s = .next { s with rdata := statusView s.regs } ∧
    exec (.rd .klen) s = .next { s with rdata := s.regs.KLEN.setWidth 64 } ∧
    exec (.rd .dlen) s = .next { s with rdata := s.regs.DLEN.setWidth 64 } ∧
    (∀ q, exec (.rd (.k q)) s = .next { s with rdata := 0 }) ∧
    exec (.rd .a) s = .next { s with rdata := if s.regs.phase = .busy then 0 else s.regs.A } ∧
    (∀ q, exec (.rd (.r q)) s =
      .next { s with rdata := if s.regs.phase = .busy then 0 else bankGet s.regs.R q }) ∧
    exec (.rd .s13) s = .next { s with rdata := 0 } ∧
    exec (.rd .s14) s = .next { s with rdata := 0 } ∧
    exec (.rd .s15) s = .next { s with rdata := 0 }

/-- A read of STATUS, in every phase, returns R42's fields at R42's bit positions, phase, mode and outcome by their numbers
(those of R30, R32 and R38), and changes nothing of the block; a write to it is refused (R42). -/
def Obligations.StatusFieldsReadBack : Prop :=
  ∀ s : State,
    (∃ v : Semi, exec (.rd .status) s = .next { s with rdata := v } ∧
      v.extractLsb' 0 2 = (match s.regs.phase with | .idle => 0#2 | .busy => 1#2 | .done => 2#2) ∧
      v.extractLsb' 2 1 = (match s.regs.mode with | .wrap => 0#1 | .unwrap => 1#1) ∧
      v.extractLsb' 3 1 = 0#1 ∧
      v.extractLsb' 4 3 = (match s.regs.outcome with
        | .none => 0#3
        | .ok => 1#3
        | .integrityFail => 2#3
        | .invalidKekLen => 3#3
        | .invalidKeyLen => 4#3
        | .invalidWrappedLen => 5#3
        | .primitiveErr => 6#3) ∧
      v.extractLsb' 7 1 = BitVec.ofBool s.regs.rej ∧
      v.extractLsb' 8 8 = s.regs.rlen ∧
      v.extractLsb' 16 16 = s.regs.perr ∧
      v.extractLsb' 32 32 = 0#32) ∧
    ∀ w, exec (.wr .status w) s = .next { s with regs := { s.regs with rej := true } }

/-- In IDLE a write to a register slot stores the value, a length saturated at 255, and changes nothing else
(R27, R28, R71, R72); `done_o` is 0 (R47). -/
def Obligations.IdleWriteStoresTheSlot : Prop :=
  ∀ (s : State) (v : Semi), s.regs.phase = .idle →
    doneO s.regs = false ∧
    exec (.wr .klen v) s = .next { s with regs := { s.regs with KLEN := BitVec.ofNat 8 (min v.toNat 255) } } ∧
    exec (.wr .dlen v) s = .next { s with regs := { s.regs with DLEN := BitVec.ofNat 8 (min v.toNat 255) } } ∧
    (∀ q, exec (.wr (.k q) v) s = .next { s with regs := { s.regs with K := bankSet s.regs.K q v } }) ∧
    exec (.wr .a v) s = .next { s with regs := { s.regs with A := v } } ∧
    (∀ q, exec (.wr (.r q) v) s = .next { s with regs := { s.regs with R := bankSet s.regs.R q v } })

/-- In IDLE a register slot reads back what was written (a length saturated, `K` as zero), and no other slot reads
differently: five distinct data registers, no aliases (R22, R72, R79). -/
def Obligations.WriteThenReadInIdle : Prop :=
  ∀ (s : State) (slot : Slot) (v : Semi), s.regs.phase = .idle →
    slot ≠ .cmd → slot ≠ .status → slot ≠ .s13 → slot ≠ .s14 → slot ≠ .s15 →
    ∃ t, exec (.wr slot v) s = .next t ∧
      hostRead t.regs slot = (match slot with
        | .klen | .dlen => BitVec.ofNat 64 (min v.toNat 255)
        | .k _ => 0
        | _ => v) ∧
      ∀ other, other ≠ slot → hostRead t.regs other = hostRead s.regs other

/-- In BUSY every host write, to any slot, CMD included, sets `rej` and nothing else; `A` and `R` read 0; STATUS, KLEN and
DLEN read normally (R73); `done_o` is 0 (R47). -/
def Obligations.BusyRefusesHostWrites : Prop :=
  ∀ s : State, s.regs.phase = .busy →
    (∀ slot v, exec (.wr slot v) s = .next { s with regs := { s.regs with rej := true } }) ∧
    (∀ i, i = .nop ∨ i = .wrap ∨ i = .unwrap ∨ i = .clear →
      exec i s = .next { s with regs := { s.regs with rej := true } }) ∧
    hostRead s.regs .a = 0 ∧ (∀ q, hostRead s.regs (.r q) = 0) ∧
    hostRead s.regs .status = statusView s.regs ∧ hostRead s.regs .klen = s.regs.KLEN.setWidth 64 ∧
    hostRead s.regs .dlen = s.regs.DLEN.setWidth 64 ∧ doneO s.regs = false

/-- In DONE the result is readable and every write is refused except NOP, which does nothing, and CLEAR (R74). A `WR` to slot 0
is well formed only with an illegal command word. In DONE `done_o` is 1 (R47). -/
def Obligations.DoneRefusesAllButNopAndClear : Prop :=
  ∀ s : State, s.regs.phase = .done →
    (∀ slot v, (Instr.wr slot v).wellFormed = true →
      exec (.wr slot v) s = .next { s with regs := { s.regs with rej := true } }) ∧
    exec .wrap s = .next { s with regs := { s.regs with rej := true } } ∧
    exec .unwrap s = .next { s with regs := { s.regs with rej := true } } ∧
    exec .nop s = .next s ∧
    exec .clear s = .next { s with regs := Regs.reset } ∧
    hostRead s.regs .a = s.regs.A ∧ (∀ q, hostRead s.regs (.r q) = bankGet s.regs.R q) ∧
    hostRead s.regs .klen = s.regs.KLEN.setWidth 64 ∧ hostRead s.regs .dlen = s.regs.DLEN.setWidth 64 ∧
    hostRead s.regs .status = statusView s.regs ∧ doneO s.regs = true

/-- Slots 13, 14 and 15 read 0 and refuse writes, in every phase (R75). -/
def Obligations.ReservedSlotsRefuseWrites : Prop :=
  ∀ (s : State) (slot : Slot) (v : Semi), slot = .s13 ∨ slot = .s14 ∨ slot = .s15 →
    hostRead s.regs slot = 0 ∧
    exec (.wr slot v) s = .next { s with regs := { s.regs with rej := true } }

/-- A command word is legal exactly when its value is below 4; an illegal one written to slot 0 is refused in every phase
(R87, R98, R110; that the operation's name is then `WR` to slot 0 is the model's choice: notes/assumptions/8.md). -/
def Obligations.IllegalCommandWordsAreRefused : Prop :=
  ∀ v : Semi, (legalCommand v = true ↔ v.toNat < 4) ∧
    (¬ v.toNat < 4 → ∀ s : State, exec (.wr .cmd v) s = .next { s with regs := { s.regs with rej := true } })

/-- NOP changes no state in IDLE and DONE and is refused in BUSY; in the reset state STATUS then reads 0; its encoding is the
write of 0 to CMD (R111). -/
def Obligations.NopChangesNothing : Prop :=
  decode (.hostx 0x100000000000000000#69) = .ok .nop ∧
  (∀ s : State, s.regs.phase ≠ .busy → exec .nop s = .next s) ∧
  (∀ s : State, s.regs.phase = .busy → exec .nop s = .next { s with regs := { s.regs with rej := true } }) ∧
  ∃ t, exec .nop State.reset = .next t ∧ hostRead t.regs .status = 0

/-- `rej` becomes 1 only by a host write, and 0 only by CLEAR and reset (R39, R216). -/
def Obligations.RejIsSetByHostWritesOnly : Prop :=
  ∀ (c : Cipher) (s t : State), stepWith c s = .next t →
    (s.regs.rej = false → t.regs.rej = true → ∃ w, nextTurn s = .host w ∧ w.extractLsb' 68 1 = 1#1) ∧
    (s.regs.rej = true → t.regs.rej = false →
      nextTurn s = .rst ∨ nextTurn s = .host 0x100000000000000003#69)

/-! The commands that start an operation. -/

/-- An accepted WRAP: exactly these registers change (R118, R119). -/
def Obligations.AcceptedWrapStart : Prop :=
  ∀ s : State, s.regs.phase = .idle → (s.regs.KLEN = 16 ∨ s.regs.KLEN = 24 ∨ s.regs.KLEN = 32) →
    s.regs.DLEN = s.regs.KLEN →
    exec .wrap s = .next { s with regs := { s.regs with
      mode := .wrap, n := BitVec.ofNat 3 (s.regs.DLEN.toNat / 8), A := 0xA6A6A6A6A6A6A6A6#64, j := 0, i := 0,
      sub := .issue, phase := .busy, outcome := .none, rlen := 0, perr := 0 } }

/-- An accepted UNWRAP: exactly these registers change; `A` keeps what the host loaded (R118, R120). -/
def Obligations.AcceptedUnwrapStart : Prop :=
  ∀ s : State, s.regs.phase = .idle → (s.regs.KLEN = 16 ∨ s.regs.KLEN = 24 ∨ s.regs.KLEN = 32) →
    s.regs.DLEN.toNat = s.regs.KLEN.toNat + 8 →
    exec .unwrap s = .next { s with regs := { s.regs with
      mode := .unwrap, n := BitVec.ofNat 3 ((s.regs.DLEN.toNat - 8) / 8), j := 5,
      i := BitVec.ofNat 2 ((s.regs.DLEN.toNat - 8) / 8 - 1),
      sub := .issue, phase := .busy, outcome := .none, rlen := 0, perr := 0 } }

/-- A START in IDLE with an illegal length is refused, the KEK length being tested first: only `outcome`, `rlen` and `perr`
change (R113 to R117). -/
def Obligations.IllegalLengthsRefuseStart : Prop :=
  ∀ s : State, s.regs.phase = .idle →
    let refused (o : OutcomeCode) : Host.Outcome State Fault Refusal :=
      .next { s with regs := { s.regs with outcome := o, rlen := 0, perr := 0 } }
    (¬ (s.regs.KLEN.toNat = 16 ∨ s.regs.KLEN.toNat = 24 ∨ s.regs.KLEN.toNat = 32) →
      exec .wrap s = refused .invalidKekLen ∧ exec .unwrap s = refused .invalidKekLen) ∧
    ((s.regs.KLEN.toNat = 16 ∨ s.regs.KLEN.toNat = 24 ∨ s.regs.KLEN.toNat = 32) →
      (s.regs.DLEN.toNat ≠ s.regs.KLEN.toNat → exec .wrap s = refused .invalidKeyLen) ∧
      (s.regs.DLEN.toNat ≠ s.regs.KLEN.toNat + 8 → exec .unwrap s = refused .invalidWrappedLen))

/-! The engine's micro-operations. -/

/-- W.ISSUE changes only `sub`, and the request it raises is `(ENC, KLEN/8 - 2, KeyBus, A ‖ R[i])`; its encoding is
`USTATE = 01 00 0` (R143, R157). -/
def Obligations.WrapIssueRaisesItsRequest : Prop :=
  decode (.ustate 0b01000#5) = .ok .wIssue ∧
  ∀ s : State, s.regs.phase = .busy → s.regs.sub = .issue → s.regs.mode = .wrap →
    exec .wIssue s = .next { s with regs := { s.regs with sub := .wait } } ∧
    cipherRequest { s.regs with sub := .wait } = some
      { dir := .enc, ksz := BitVec.ofNat 2 (s.regs.KLEN.toNat / 8 - 2), key := keyBus s.regs.K s.regs.KLEN,
        block := s.regs.A ++ bankGet s.regs.R s.regs.i }

/-- U.ISSUE changes only `sub`, and the request it raises is `(DEC, KLEN/8 - 2, KeyBus, (A xor t) ‖ R[i])`; its encoding
is `USTATE = 01 00 1` (R143, R172). -/
def Obligations.UnwrapIssueRaisesItsRequest : Prop :=
  decode (.ustate 0b01001#5) = .ok .uIssue ∧
  ∀ s : State, s.regs.phase = .busy → s.regs.sub = .issue → s.regs.mode = .unwrap →
    exec .uIssue s = .next { s with regs := { s.regs with sub := .wait } } ∧
    cipherRequest { s.regs with sub := .wait } = some
      { dir := .dec, ksz := BitVec.ofNat 2 (s.regs.KLEN.toNat / 8 - 2), key := keyBus s.regs.K s.regs.KLEN,
        block := (s.regs.A ^^^ BitVec.ofNat 64 (s.regs.n.toNat * s.regs.j.toNat + s.regs.i.toNat + 1)) ++
          bankGet s.regs.R s.regs.i }

/-- W.RETIRE with `Ok(B)`: `A` takes `B[127:64] xor t` and `R[i]` takes `B[63:0]`, no other element of `R` changes, the
counters advance by `NextW` in its three cases, the response is consumed, and nothing else changes; where the sequencing
invariants hold the last case is `(j, i) = (5, n-1)` (R141, R158). The field `crsp` is how the model holds the response
until it is consumed: notes/assumptions/3.md. -/
def Obligations.WrapRetireStoresAndAdvances : Prop :=
  ∀ (s : State) (B : Block128), s.regs.phase = .busy → s.regs.sub = .wait → s.regs.mode = .wrap →
    s.crsp = some (.ok B) →
    let b : Regs := { s.regs with
      A := B.extractLsb' 64 64 ^^^
        BitVec.ofNat 64 (s.regs.n.toNat * s.regs.j.toNat + s.regs.i.toNat + 1)
      R := bankSet s.regs.R s.regs.i (B.extractLsb' 0 64) }
    (s.regs.i.toNat < s.regs.n.toNat - 1 →
      exec .wRetire s = .next { s with crsp := none, regs := { b with i := s.regs.i + 1, sub := .issue } }) ∧
    (¬ s.regs.i.toNat < s.regs.n.toNat - 1 → s.regs.j.toNat < 5 →
      exec .wRetire s = .next { s with crsp := none, regs := { b with j := s.regs.j + 1, i := 0, sub := .issue } }) ∧
    (¬ s.regs.i.toNat < s.regs.n.toNat - 1 → ¬ s.regs.j.toNat < 5 →
      exec .wRetire s = .next { s with crsp := none, regs := { b with sub := .fin } } ∧
      (s.regs.seqInv → s.regs.j = 5 ∧ s.regs.i.toNat = s.regs.n.toNat - 1)) ∧
    bankGet b.R s.regs.i = B.extractLsb' 0 64 ∧ ∀ q, q ≠ s.regs.i → bankGet b.R q = bankGet s.regs.R q

/-- U.RETIRE with `Ok(B)`: `A` takes `B[127:64]` and `R[i]` takes `B[63:0]`, no other element of `R` changes, the counters
go back by `NextU` in its three cases, of which the last is `(j, i) = (0, 0)`, the response is consumed, and nothing else
changes (R142, R173). The field `crsp` is how the model holds the response until it is consumed: notes/assumptions/3.md. -/
def Obligations.UnwrapRetireStoresAndAdvances : Prop :=
  ∀ (s : State) (B : Block128), s.regs.phase = .busy → s.regs.sub = .wait → s.regs.mode = .unwrap →
    s.crsp = some (.ok B) →
    let b : Regs := { s.regs with
      A := B.extractLsb' 64 64
      R := bankSet s.regs.R s.regs.i (B.extractLsb' 0 64) }
    (0 < s.regs.i.toNat →
      exec .uRetire s = .next { s with crsp := none, regs := { b with i := s.regs.i - 1, sub := .issue } }) ∧
    (¬ 0 < s.regs.i.toNat → 0 < s.regs.j.toNat →
      exec .uRetire s = .next { s with crsp := none, regs := { b with
        j := s.regs.j - 1, i := BitVec.ofNat 2 (s.regs.n.toNat - 1), sub := .issue } }) ∧
    (¬ 0 < s.regs.i.toNat → ¬ 0 < s.regs.j.toNat →
      exec .uRetire s = .next { s with crsp := none, regs := { b with sub := .fin } } ∧
      s.regs.j = 0 ∧ s.regs.i = 0) ∧
    bankGet b.R s.regs.i = B.extractLsb' 0 64 ∧ ∀ q, q ≠ s.regs.i → bankGet b.R q = bankGet s.regs.R q

/-- `raise PrimitiveFailure(code)`: a RETIRE that consumes `Err(code)` records the code unchanged, zeroizes `A` and `R`, ends
the operation with no request outstanding, and changes nothing else; it happens in wrap and in unwrap (R198). The
field `crsp` is how the model holds the response until it is consumed: notes/assumptions/3.md. -/
def Obligations.PrimitiveFailureEndsTheOperation : Prop :=
  ∀ (s : State) (code : BitVec 16), s.regs.phase = .busy → s.regs.sub = .wait → s.crsp = some (.err code) →
    let failed : Regs := { s.regs with
      outcome := .primitiveErr, perr := code, rlen := 0, A := 0, R := ⟨0, 0, 0, 0⟩,
      phase := .done, sub := .issue, j := 0, i := 0 }
    (s.regs.mode = .wrap → exec .wRetire s = .next { s with crsp := none, regs := failed }) ∧
    (s.regs.mode = .unwrap → exec .uRetire s = .next { s with crsp := none, regs := failed }) ∧
    cipherRequest failed = none

/-- If the adapter never answers, the engine stays in `(BUSY, WAIT)` for ever, however many steps pass and whatever the host
does: the registers keep their values, but for `rej`, which a refused host write sets (R73, R147). With no turn given
nothing changes at all; that the engine then moves is the model's choice: notes/assumptions/1.md. -/
def Obligations.SilentAdapterHangsTheEngine : Prop :=
  ∀ (c : Cipher) (s : State) (k : Nat), s.regs.phase = .busy → s.regs.sub = .wait → s.crsp = none →
    (∀ x ∈ s.turns, isSilent x = true) →
    ∃ t : State, (coreWith c).run k s = .next t ∧
      t.regs.phase = .busy ∧ t.regs.sub = .wait ∧ t.crsp = none ∧
      (t.regs = s.regs ∨ t.regs = { s.regs with rej := true }) ∧
      (s.turns = [] → t = s)

/-- W.FIN: `outcome` OK, `rlen` DLEN + 8, the operation ends, `A` and `R` hold the result; `rlen` is 24, 32 or 40
where the sequencing invariants hold; the encoding is `USTATE = 01 10 0` (R160). -/
def Obligations.WrapFinishSucceeds : Prop :=
  decode (.ustate 0b01100#5) = .ok .wFin ∧
  ∀ s : State, s.regs.phase = .busy → s.regs.sub = .fin → s.regs.mode = .wrap →
    exec .wFin s = .next { s with regs := { s.regs with
      outcome := .ok, rlen := s.regs.DLEN + 8, phase := .done, sub := .issue, j := 0, i := 0 } } ∧
    (s.regs.seqInv → s.regs.DLEN + 8 = 24 ∨ s.regs.DLEN + 8 = 32 ∨ s.regs.DLEN + 8 = 40)

/-- U.FIN: if `A` is the ICV, `outcome` OK and `rlen` DLEN - 8; otherwise INTEGRITY_FAIL, `rlen` 0 and `A`, `R` zeroized;
either way the operation ends and nothing else changes. After a failure the host reads zeros, and the outcome's code is
that of no other outcome; the encoding is `USTATE = 01 10 1` (R174, R176). -/
def Obligations.UnwrapFinishChecksTheIcv : Prop :=
  decode (.ustate 0b01101#5) = .ok .uFin ∧
  (∀ o : OutcomeCode, outcomeCode o = outcomeCode .integrityFail → o = .integrityFail) ∧
  ∀ s : State, s.regs.phase = .busy → s.regs.sub = .fin → s.regs.mode = .unwrap →
    (s.regs.A = 0xA6A6A6A6A6A6A6A6#64 →
      exec .uFin s = .next { s with regs := { s.regs with
        outcome := .ok, rlen := s.regs.DLEN - 8, phase := .done, sub := .issue, j := 0, i := 0 } }) ∧
    (s.regs.A ≠ 0xA6A6A6A6A6A6A6A6#64 →
      let failed : Regs := { s.regs with
        outcome := .integrityFail, rlen := 0, A := 0, R := ⟨0, 0, 0, 0⟩,
        phase := .done, sub := .issue, j := 0, i := 0 }
      exec .uFin s = .next { s with regs := failed } ∧
      hostRead failed .a = 0 ∧ ∀ q, hostRead failed (.r q) = 0)

/-- C.RESPOND with a request outstanding and unanswered: the response is on the port, and no register of the block changes
(R194, R195). That the port holds it for the RETIRE is the model's choice: notes/assumptions/3.md. -/
def Obligations.ResponseIsTakenForTheRequest : Prop :=
  ∀ (s : State) (e : BitVec 1) (c : BitVec 16) (b : Block128), s.regs.phase = .busy → s.regs.sub = .wait →
    s.crsp = none →
    exec (.cRespond e c b) s = .next { s with crsp := some (if e = 0#1 then .ok b else .err c) }

/-- A response with no request outstanding changes nothing (R196 (a)). Nor does a second response to a request already
answered, which R249 assumes never to come; that it is ignored is DEDUCED, notes/assumptions/4.md, and that the first one
stands in `crsp` the model's choice, notes/assumptions/3.md. -/
def Obligations.StrayResponseIsIgnored : Prop :=
  ∀ (s : State) (e : BitVec 1) (c : BitVec 16) (b : Block128),
    s.regs.phase ≠ .busy ∨ s.regs.sub ≠ .wait ∨ s.crsp ≠ none → exec (.cRespond e c b) s = .next s

/-- A micro-operation that the control state does not select, and a RETIRE without a response, change nothing: the engine
has no such step (R97, R135). That `exec` answers the unchanged state there is the model's choice: notes/assumptions/6.md. -/
def Obligations.UnselectedMicroOpsDoNothing : Prop :=
  ∀ s : State,
    (¬ (s.regs.phase = .busy ∧ s.regs.sub = .issue ∧ s.regs.mode = .wrap) → exec .wIssue s = .next s) ∧
    (¬ (s.regs.phase = .busy ∧ s.regs.sub = .issue ∧ s.regs.mode = .unwrap) → exec .uIssue s = .next s) ∧
    (¬ (s.regs.phase = .busy ∧ s.regs.sub = .wait ∧ s.regs.mode = .wrap ∧ s.crsp ≠ none) →
      exec .wRetire s = .next s) ∧
    (¬ (s.regs.phase = .busy ∧ s.regs.sub = .wait ∧ s.regs.mode = .unwrap ∧ s.crsp ≠ none) →
      exec .uRetire s = .next s) ∧
    (¬ (s.regs.phase = .busy ∧ s.regs.sub = .fin ∧ s.regs.mode = .wrap) → exec .wFin s = .next s) ∧
    (¬ (s.regs.phase = .busy ∧ s.regs.sub = .fin ∧ s.regs.mode = .unwrap) → exec .uFin s = .next s)

/-- On the adapter's turn the answer to the outstanding request is the cipher's, a function of the four request fields
alone, through the CRSP word and back; no register of the block changes (R13, R195, R196 (b)). That the adapter has such a
turn is notes/assumptions/4.md's, that the answer stands in `crsp` until it is consumed notes/assumptions/3.md's. -/
def Obligations.AdapterAnswersAsTheCipher : Prop :=
  ∀ (c : Cipher) (s : State), nextTurn s = .answer → s.regs.phase = .busy → s.regs.sub = .wait → s.crsp = none →
    ∃ q, cipherRequest s.regs = some q ∧
      stepWith c s = .next { s with crsp := some (c q), turns := s.turns.tail }

/-! The cipher request and the step counter. -/

/-- The request's fields, and the key bus for the three legal lengths: the key in the most significant bits, first register
first, zeros below (R192; for a KLEN that no START accepts they are the model's own: notes/assumptions/11.md). -/
def Obligations.RequestFieldsFollowTheState : Prop :=
  (∀ b : Regs, (requestFields b).dir = (if b.mode = .unwrap then .dec else .enc) ∧
    (requestFields b).ksz = BitVec.ofNat 2 (b.KLEN.toNat / 8 - 2) ∧
    (requestFields b).key = keyBus b.K b.KLEN ∧
    (b.mode = .wrap → (requestFields b).block = b.A ++ bankGet b.R b.i) ∧
    (b.mode = .unwrap → (requestFields b).block =
      (b.A ^^^ BitVec.ofNat 64 (b.n.toNat * b.j.toNat + b.i.toNat + 1)) ++ bankGet b.R b.i)) ∧
  ∀ k : Quad,
    keyBus k 16 = k.q0 ++ k.q1 ++ 0#128 ∧
    keyBus k 24 = k.q0 ++ k.q1 ++ k.q2 ++ 0#64 ∧
    keyBus k 32 = k.q0 ++ k.q1 ++ k.q2 ++ k.q3

/-- Registers of the KEK at and beyond the declared length never leave the block: the request is the same whatever they
hold (R90, R192; for a KLEN that no START accepts the model's key bus is its own: notes/assumptions/11.md). -/
def Obligations.KeyBeyondItsLengthStaysInside : Prop :=
  ∀ (b : Regs) (k : Quad), (∀ q, q.toNat < b.KLEN.toNat / 8 → bankGet k q = bankGet b.K q) →
    cipherRequest { b with K := k } = cipherRequest b

/-- In BUSY, `1 <= t <= 6n <= 24`; `zext_64(t)` is exact, and XOR with it changes bits 4 to 0 only (R10, R63, R137, R138). -/
def Obligations.StepCounterStaysInRange : Prop :=
  ∀ b : Regs, b.seqInv → b.phase = .busy →
    1 ≤ stepCounter b.n.toNat b.j.toNat b.i.toNat ∧
    stepCounter b.n.toNat b.j.toNat b.i.toNat ≤ 6 * b.n.toNat ∧ 6 * b.n.toNat ≤ 24 ∧
    (counterWord b).toNat = b.n.toNat * b.j.toNat + b.i.toNat + 1 ∧
    ∀ x : Semi, (x ^^^ counterWord b).extractLsb' 5 59 = x.extractLsb' 5 59

/-- The schedule takes each value `1, 2, .., 6n` of `t` exactly once, in that order (R145, R146, R150). For
`n` other than 2, 3 and 4, which no operation has, the schedule is the model's own, a DESIGN CHOICE:
notes/assumptions/21.md. -/
def Obligations.ScheduleCountsEveryStep : Prop :=
  ∀ n : Nat, (schedule n).map (fun p => stepCounter n p.1 p.2) = List.range' 1 (6 * n)

/-- Successive steps of a wrap have successive `t`, those of an unwrap go down by one, and the operation is at FIN after
`t = 6n` and after `t = 1` respectively (R141, R142, R145). -/
def Obligations.CounterMovesByOne : Prop :=
  ∀ (b : Regs) (B : Block128), b.seqInv → b.phase = .busy → b.sub = .wait →
    let t (b : Regs) : Nat := stepCounter b.n.toNat b.j.toNat b.i.toNat
    (b.mode = .wrap →
      (t b < 6 * b.n.toNat → t (retireWrap b (.ok B)) = t b + 1 ∧ (retireWrap b (.ok B)).sub = .issue) ∧
      (t b = 6 * b.n.toNat → (retireWrap b (.ok B)).sub = .fin)) ∧
    (b.mode = .unwrap →
      (1 < t b → t (retireUnwrap b (.ok B)) + 1 = t b ∧ (retireUnwrap b (.ok B)).sub = .issue) ∧
      (t b = 1 → (retireUnwrap b (.ok B)).sub = .fin))

/-! Invariants and rules of the whole machine. -/

/-- Every step keeps the invariants of the sequencing state, R37 (a) to (e). -/
def Obligations.StepKeepsSequencing : Prop :=
  ∀ s t : State, s.regs.seqInv → step s = .next t → t.regs.seqInv

/-- Every step keeps what the status registers say of the data: an operation that failed leaves no data and no length, a
successful one the right length, and an error code stands only with PRIMITIVE_ERR (R40, R41, R49, R221). -/
def Obligations.StepKeepsStatus : Prop :=
  ∀ s t : State, s.regs.seqInv → s.regs.statusInv → step s = .next t → t.regs.statusInv

/-- Every step keeps it that a response is held only while a request is outstanding (R45, R196 (a), R241); that a response is
held at all is the model's choice: notes/assumptions/3.md. -/
def Obligations.StepKeepsTheResponsePort : Prop :=
  ∀ s t : State, s.portInv → step s = .next t → t.portInv

/-- The reset state meets the three invariants (R37, R48). -/
def Obligations.ResetMeetsTheInvariants : Prop :=
  State.reset.regs.seqInv ∧ State.reset.regs.statusInv ∧ State.reset.portInv

/-- The phase moves in R30's ways only: IDLE to BUSY by a START, BUSY to DONE by the engine, DONE to IDLE by CLEAR, any to
IDLE by reset (R30, R149). `done_o` is 1 exactly in DONE, so it rises when an operation ends, falls at CLEAR or reset, and
does not rise for a length error (R47, R219). -/
def Obligations.PhaseMovesOnlyAsListed : Prop :=
  (∀ b : Regs, doneO b = true ↔ b.phase = .done) ∧
  ∀ (c : Cipher) (s t : State), stepWith c s = .next t → t.regs.phase ≠ s.regs.phase →
    (nextTurn s = .rst ∧ t.regs.phase = .idle) ∨
    (s.regs.phase = .idle ∧ t.regs.phase = .busy ∧ t.regs.sub = .issue ∧
      (nextTurn s = .host 0x100000000000000001#69 ∨ nextTurn s = .host 0x100000000000000002#69)) ∨
    (s.regs.phase = .busy ∧ t.regs.phase = .done ∧ nextTurn s = .engine ∧ s.regs.sub ≠ .issue) ∨
    (s.regs.phase = .done ∧ t.regs.phase = .idle ∧ nextTurn s = .host 0x100000000000000003#69)

/-- Outside IDLE nothing but reset, and in DONE CLEAR, changes `K`, `KLEN`, `DLEN`, `mode` and `n`: an operation's operands
are latched (R26, R32, R33, R82). -/
def Obligations.LatchedOperandsHoldOutsideIdle : Prop :=
  ∀ (c : Cipher) (s t : State), stepWith c s = .next t → s.regs.phase ≠ .idle →
    (t.regs = Regs.reset ∧
      (nextTurn s = .rst ∨ (s.regs.phase = .done ∧ nextTurn s = .host 0x100000000000000003#69))) ∨
    (t.regs.K = s.regs.K ∧ t.regs.KLEN = s.regs.KLEN ∧ t.regs.DLEN = s.regs.DLEN ∧ t.regs.mode = s.regs.mode ∧
      t.regs.n = s.regs.n)

/-- A step in BUSY leaves `R[n]` to `R[3]` as they were, unless it zeroizes the array (R21, R162). -/
def Obligations.UnusedElementsKeepTheirValue : Prop :=
  ∀ (c : Cipher) (s t : State), s.regs.seqInv → s.regs.phase = .busy → stepWith c s = .next t →
    t.regs.R = ⟨0, 0, 0, 0⟩ ∨ ∀ q, s.regs.n.toNat ≤ q.toNat → bankGet t.regs.R q = bankGet s.regs.R q

/-- While a request is outstanding its four fields are constant (R45, R191, R197). -/
def Obligations.RequestIsConstantWhileOutstanding : Prop :=
  ∀ (c : Cipher) (s t : State), stepWith c s = .next t → outstanding s.regs = true → outstanding t.regs = true →
    cipherRequest t.regs = cipherRequest s.regs

/-- The KEK is never readable at the host port: no host read and not `done_o` depends on it (R26, R44). On the cipher port
the key bus carries it, as R192 says. -/
def Obligations.KekIsUnreadable : Prop := ∀ (b : Regs) (k : Quad), sameHostView b { b with K := k }

/-- In BUSY the host sees nothing of the work: not `A`, not `R`, not the sub-state or the counters (R44, R73). -/
def Obligations.BusyHidesTheWork : Prop :=
  ∀ (b : Regs) (a : Semi) (r : Quad) (u : Sub) (n j : BitVec 3) (i : BitVec 2), b.phase = .busy →
    sameHostView b { b with A := a, R := r, sub := u, n := n, j := j, i := i }

/-- `rej` influences nothing but itself (and what STATUS shows): a step from states that differ in it only gives registers
that differ in it only (R39, R148, R216). -/
def Obligations.RejInfluencesNothingElse : Prop :=
  ∀ (c : Cipher) (s t : State) (r : Bool), stepWith c s = .next t →
    ∃ u, stepWith c { s with regs := { s.regs with rej := r } } = .next u ∧
      u.regs.noRej = t.regs.noRej ∧ u.crsp = t.crsp ∧ u.turns = t.turns

/-! The whole operations. -/

/-- From IDLE with legal lengths, WRAP and then ISSUE, C.RESPOND, RETIRE `6n` times and FIN end in DONE with outcome OK,
`rlen` 8n + 8 and `A`, `R` as the function `Wrap` gives them for the cipher under this KEK; nothing else changes, `R[n..3]`
among it (R96, R136, R161, R162, R163; the turns as an input: notes/assumptions/1.md). -/
def Obligations.WrapOperationComputesWrap : Prop :=
  ∀ (f : Request → Block128) (s : State) (n : Nat), n = 2 ∨ n = 3 ∨ n = 4 →
    s.regs.phase = .idle → s.regs.KLEN.toNat = 8 * n → s.regs.DLEN.toNat = 8 * n → s.crsp = none →
    let w := wrapTransform (underKek f .enc s.regs) n s.regs.R
    (coreWith (totalCipher f)).run (18 * n + 2) (s.withTurns (wrapLine :: operationTurns n)) =
      .next { s with turns := [], regs := { s.regs with
        A := w.A, R := w.R, phase := .done, sub := .issue, mode := .wrap, n := BitVec.ofNat 3 n, j := 0, i := 0,
        outcome := .ok, rlen := BitVec.ofNat 8 (8 * n + 8), perr := 0 } } ∧
    ∀ q : BitVec 2, n ≤ q.toNat → bankGet w.R q = bankGet s.regs.R q

/-- From IDLE with legal lengths, UNWRAP and then ISSUE, C.RESPOND, RETIRE `6n` times and FIN end in DONE as the function
`Unwrap` says for the cipher under this KEK: the plaintext in `R`, the ICV in `A` and `rlen` 8n, or INTEGRITY_FAIL with
`A`, `R` and `rlen` zero; nothing else changes (R96, R136, R175, R176, R180; the turns as an input:
notes/assumptions/1.md). -/
def Obligations.UnwrapOperationComputesUnwrap : Prop :=
  ∀ (f : Request → Block128) (s : State) (n : Nat), n = 2 ∨ n = 3 ∨ n = 4 →
    s.regs.phase = .idle → s.regs.KLEN.toNat = 8 * n → s.regs.DLEN.toNat = 8 * n + 8 → s.crsp = none →
    let b : Regs := { s.regs with
      phase := .done, sub := .issue, mode := .unwrap, n := BitVec.ofNat 3 n, j := 0, i := 0, perr := 0 }
    (coreWith (totalCipher f)).run (18 * n + 2) (s.withTurns (unwrapLine :: operationTurns n)) =
      .next { s with turns := [], regs :=
        match unwrapTransform (underKek f .dec s.regs) n { A := s.regs.A, R := s.regs.R } with
        | some p => { b with A := Config.icv, R := p, outcome := .ok, rlen := BitVec.ofNat 8 (8 * n) }
        | none => { b with A := 0, R := ⟨0, 0, 0, 0⟩, outcome := .integrityFail, rlen := 0 } }

/-- The round-trip law: if decryption inverts encryption on every block, `Unwrap` of `Wrap` gives the plaintext
back, for `n` in {2, 3, 4} (R181). It is stated for every `n`: for the others, which no operation has, it speaks of the
model's own functions only, a DESIGN CHOICE, notes/assumptions/21.md. -/
def Obligations.UnwrapUndoesWrap : Prop :=
  ∀ (enc dec : Block128 → Block128) (n : Nat) (p : Quad), (∀ x, dec (enc x) = x) →
    unwrapTransform dec n (wrapTransform enc n p) = some p

/-- Host reads disturb nothing: a run with all its host reads taken out ends with the same registers and the same response
port (R70, R148). -/
def Obligations.HostReadsDoNotDisturb : Prop :=
  ∀ (c : Cipher) (s : State) (ts : List Turn),
    ∃ t u, (coreWith c).run ts.length (s.withTurns ts) = .next t ∧
      (coreWith c).run (ts.filter fun x => !isRead x).length (s.withTurns (ts.filter fun x => !isRead x)) = .next u ∧
      t.regs = u.regs ∧ t.crsp = u.crsp

/-- Determinism: for one cipher, every interleaving of engine, adapter and host transactions other than CLEAR that brings a
running operation to DONE ends with the same registers but for `rej`, whatever the adapter's latency (R148, R218). -/
def Obligations.ResultIsIndependentOfInterleaving : Prop :=
  ∀ (c : Cipher) (s t u : State) (ts us : List Turn), s.regs.phase = .busy →
    (∀ x ∈ ts, isQuiet x = true) → (∀ x ∈ us, isQuiet x = true) →
    (coreWith c).run ts.length (s.withTurns ts) = .next t → t.regs.phase = .done →
    (coreWith c).run us.length (s.withTurns us) = .next u → u.regs.phase = .done →
    t.regs.noRej = u.regs.noRej

/-- Termination: from any state of a running operation, with any cipher that answers, every fair schedule reaches DONE. A fair
schedule is a list of at least `18n + 1` rounds, one for each step of engine and adapter that is left at most; in a round
engine and adapter each get a turn, in any order, with any host transactions but CLEAR between (which BUSY refuses, and
which after the end would return the block to IDLE). Strict alternation of engine and adapter needs no more than `12n + 1`
rounds, one for each micro-operation. A POLL with a fair round before each of its reads ends, with DONE read (R102, R147,
R249, R250). Fairness as a hypothesis on the turns is notes/assumptions/16.md's. -/
def Obligations.FairOperationTerminates : Prop :=
  ∀ (c : Cipher) (s : State), s.regs.seqInv → s.regs.phase = .busy →
    (∀ rounds : List (List Turn), (∀ r ∈ rounds, fairRound r) → 18 * s.regs.n.toNat + 1 ≤ rounds.length →
      ∃ t : State, (coreWith c).run rounds.flatten.length (s.withTurns rounds.flatten) = .next t ∧
        t.regs.phase = .done) ∧
    (∀ gaps : List (List Turn), (∀ g ∈ gaps, fairRound g) → 18 * s.regs.n.toNat + 1 ≤ gaps.length →
      ∃ v x, poll c s gaps = some (v, x) ∧ v.extractLsb' 0 2 = 2#2 ∧ x.state.regs.phase = .done) ∧
    ∃ t : State,
      (coreWith c).run (2 * (12 * s.regs.n.toNat + 1)) (s.withTurns (fairTurns (12 * s.regs.n.toNat + 1))) =
        .next t ∧ t.regs.phase = .done

/-- LOADKEK of a KEK of legal length, in IDLE: KLEN is its length, `K[q]` its semiblock `q`, first byte in bits 63 to 56, the
registers beyond it and everything else unchanged (R25, R60, R90, R101). -/
def Obligations.LoadKekPlacesTheKey : Prop :=
  ∀ (c : Cipher) (s : State) (kek : List Byte), s.regs.phase = .idle →
    kek.length = 16 ∨ kek.length = 24 ∨ kek.length = 32 →
    ∃ k : Quad,
      (coreWith c).run (loadKek kek).length (s.withTurns (loadKek kek)) =
        .next { s with turns := [], regs := { s.regs with KLEN := BitVec.ofNat 8 kek.length, K := k } } ∧
      (∀ q : BitVec 2, 8 * q.toNat < kek.length → ∀ m, m < 8 →
        (bankGet k q).extractLsb' (56 - 8 * m) 8 = kek.getD (8 * q.toNat + m) 0) ∧
      ∀ q : BitVec 2, kek.length ≤ 8 * q.toNat → bankGet k q = bankGet s.regs.K q
end

