-- ==== Sys2Proof/Laws/Encoding.lean ====
section
/-! SUPPORT. The fields of the encoded words read back, a word is the concatenation of its fields, and the slot index
goes both ways. -/

namespace Sys2Proof

/-- A field above the lower half of a concatenation is a field of the upper half. -/
theorem extract_append_high {a b s m : Nat} (x : BitVec a) (y : BitVec b) (h : b ≤ s) :
    (x ++ y).extractLsb' s m = x.extractLsb' (s - b) m := by
  ext i hi
  simp only [BitVec.getElem_extractLsb', BitVec.getLsbD_append]
  rw [if_neg (by omega)]
  congr 1
  omega

/-- A field inside the lower half of a concatenation is a field of the lower half. -/
theorem extract_append_low {a b s m : Nat} (x : BitVec a) (y : BitVec b) (h : s + m ≤ b) :
    (x ++ y).extractLsb' s m = y.extractLsb' s m := by
  ext i hi
  simp only [BitVec.getElem_extractLsb', BitVec.getLsbD_append]
  rw [if_pos (by omega)]

/-- The whole of a word is the word. -/
theorem extract_all {a : Nat} (x : BitVec a) : x.extractLsb' 0 a = x := BitVec.extractLsb'_eq_self

/-- Two adjacent fields, put together, are the field that spans both. -/
theorem extract_append_extract {w a b s t : Nat} (x : BitVec w) (h : t = s + b) :
    x.extractLsb' t a ++ x.extractLsb' s b = x.extractLsb' s (a + b) := by
  subst h
  ext i hi
  simp only [BitVec.getElem_append, BitVec.getElem_extractLsb']
  split
  · rfl
  · congr 1
    omega

@[simp] theorem extract_hostx_we (e : BitVec 1) (s : Slot) (v : Semi) :
    (hostxWord e s v).extractLsb' 68 1 = e :=
  (extract_append_high (e ++ slotIdx s) v (by decide)).trans
    ((extract_append_high e (slotIdx s) (by decide)).trans (extract_all e))

@[simp] theorem extract_hostx_idx (e : BitVec 1) (s : Slot) (v : Semi) :
    (hostxWord e s v).extractLsb' 64 4 = slotIdx s :=
  (extract_append_high (e ++ slotIdx s) v (by decide)).trans
    ((extract_append_low e (slotIdx s) (by decide)).trans (extract_all _))

@[simp] theorem extract_hostx_wdata (e : BitVec 1) (s : Slot) (v : Semi) :
    (hostxWord e s v).extractLsb' 0 64 = v :=
  (extract_append_low (e ++ slotIdx s) v (by decide)).trans (extract_all v)

@[simp] theorem extract_crsp_err (e : BitVec 1) (c : BitVec 16) (b : Block128) :
    (crspWord e c b).extractLsb' 144 1 = e :=
  (extract_append_high (e ++ c) b (by decide)).trans
    ((extract_append_high e c (by decide)).trans (extract_all e))

@[simp] theorem extract_crsp_code (e : BitVec 1) (c : BitVec 16) (b : Block128) :
    (crspWord e c b).extractLsb' 128 16 = c :=
  (extract_append_high (e ++ c) b (by decide)).trans
    ((extract_append_low e c (by decide)).trans (extract_all c))

@[simp] theorem extract_crsp_block (e : BitVec 1) (c : BitVec 16) (b : Block128) :
    (crspWord e c b).extractLsb' 0 128 = b :=
  (extract_append_low (e ++ c) b (by decide)).trans (extract_all b)

/-- A slot's index names the slot (R68). -/
@[simp] theorem slotOfIdx_slotIdx (s : Slot) : slotOfIdx (slotIdx s) = s := by
  cases s with
  | k q => revert q; decide
  | r q => revert q; decide
  | _ => rfl

/-- Every 4-bit index is the index of the slot it names (R68). -/
@[simp] theorem slotIdx_slotOfIdx (x : BitVec 4) : slotIdx (slotOfIdx x) = x := by
  revert x
  decide

/-- The decoder reads the response out of the CRSP word of a response (R194). -/
theorem decode_responseWord (r : Response) :
    ∃ e c b, decode (.crsp (responseWord r)) = .ok (.cRespond e c b) ∧ responseOf e c b = r := by
  cases r with
  | ok b => exact ⟨0, 0, b, by simp [decode, decodeCrsp, responseWord], by simp [responseOf]⟩
  | err c => exact ⟨1, c, 0, by simp [decode, decodeCrsp, responseWord], by simp [responseOf]⟩

/-- A host read decodes to the read of its slot, whatever its ignored data field (R86). -/
theorem decodeHostx_read (s : Slot) (v : Semi) : decodeHostx (hostxWord 0 s v) = .rd s := by
  simp [decodeHostx]

/-- A write to a slot other than CMD decodes to that write (R96). -/
theorem decodeHostx_write (s : Slot) (v : Semi) (h : s ≠ .cmd) : decodeHostx (hostxWord 1 s v) = .wr s v := by
  cases s <;> simp_all [decodeHostx]

/-- The legal command words are the four values 0 to 3 (R87). -/
theorem legalCommand_iff (v : Semi) : legalCommand v = true ↔ v.toNat < 4 := by
  simp only [legalCommand, beq_iff_eq, ← BitVec.toNat_inj, BitVec.extractLsb'_toNat]
  have := v.isLt
  simp [Nat.shiftRight_eq_div_pow]
  omega

end Sys2Proof
end

