-- ==== Sys2Proof/Laws/State.lean ====
section
/-! SUPPORT. What each update of the registers and of the machine's state leaves in each field. -/

namespace Sys2Proof.Machine

section
variable (b : Regs)

@[simp] theorem leaveBusy_A : (leaveBusy b).A = b.A := rfl
@[simp] theorem leaveBusy_R : (leaveBusy b).R = b.R := rfl
@[simp] theorem leaveBusy_K : (leaveBusy b).K = b.K := rfl
@[simp] theorem leaveBusy_KLEN : (leaveBusy b).KLEN = b.KLEN := rfl
@[simp] theorem leaveBusy_DLEN : (leaveBusy b).DLEN = b.DLEN := rfl
@[simp] theorem leaveBusy_phase : (leaveBusy b).phase = .done := rfl
@[simp] theorem leaveBusy_sub : (leaveBusy b).sub = .issue := rfl
@[simp] theorem leaveBusy_mode : (leaveBusy b).mode = b.mode := rfl
@[simp] theorem leaveBusy_n : (leaveBusy b).n = b.n := rfl
@[simp] theorem leaveBusy_j : (leaveBusy b).j = 0 := rfl
@[simp] theorem leaveBusy_i : (leaveBusy b).i = 0 := rfl
@[simp] theorem leaveBusy_outcome : (leaveBusy b).outcome = b.outcome := rfl
@[simp] theorem leaveBusy_rej : (leaveBusy b).rej = b.rej := rfl
@[simp] theorem leaveBusy_rlen : (leaveBusy b).rlen = b.rlen := rfl
@[simp] theorem leaveBusy_perr : (leaveBusy b).perr = b.perr := rfl

@[simp] theorem zeroizeData_A : (zeroizeData b).A = 0 := rfl
@[simp] theorem zeroizeData_R : (zeroizeData b).R = bankZero := rfl
@[simp] theorem zeroizeData_K : (zeroizeData b).K = b.K := rfl
@[simp] theorem zeroizeData_KLEN : (zeroizeData b).KLEN = b.KLEN := rfl
@[simp] theorem zeroizeData_DLEN : (zeroizeData b).DLEN = b.DLEN := rfl
@[simp] theorem zeroizeData_phase : (zeroizeData b).phase = b.phase := rfl
@[simp] theorem zeroizeData_sub : (zeroizeData b).sub = b.sub := rfl
@[simp] theorem zeroizeData_mode : (zeroizeData b).mode = b.mode := rfl
@[simp] theorem zeroizeData_n : (zeroizeData b).n = b.n := rfl
@[simp] theorem zeroizeData_j : (zeroizeData b).j = b.j := rfl
@[simp] theorem zeroizeData_i : (zeroizeData b).i = b.i := rfl
@[simp] theorem zeroizeData_outcome : (zeroizeData b).outcome = b.outcome := rfl
@[simp] theorem zeroizeData_rej : (zeroizeData b).rej = b.rej := rfl
@[simp] theorem zeroizeData_rlen : (zeroizeData b).rlen = b.rlen := rfl
@[simp] theorem zeroizeData_perr : (zeroizeData b).perr = b.perr := rfl

@[simp] theorem refuseLength_A (o : OutcomeCode) : (refuseLength o b).A = b.A := rfl
@[simp] theorem refuseLength_R (o : OutcomeCode) : (refuseLength o b).R = b.R := rfl
@[simp] theorem refuseLength_K (o : OutcomeCode) : (refuseLength o b).K = b.K := rfl
@[simp] theorem refuseLength_KLEN (o : OutcomeCode) : (refuseLength o b).KLEN = b.KLEN := rfl
@[simp] theorem refuseLength_DLEN (o : OutcomeCode) : (refuseLength o b).DLEN = b.DLEN := rfl
@[simp] theorem refuseLength_phase (o : OutcomeCode) : (refuseLength o b).phase = b.phase := rfl
@[simp] theorem refuseLength_sub (o : OutcomeCode) : (refuseLength o b).sub = b.sub := rfl
@[simp] theorem refuseLength_mode (o : OutcomeCode) : (refuseLength o b).mode = b.mode := rfl
@[simp] theorem refuseLength_n (o : OutcomeCode) : (refuseLength o b).n = b.n := rfl
@[simp] theorem refuseLength_j (o : OutcomeCode) : (refuseLength o b).j = b.j := rfl
@[simp] theorem refuseLength_i (o : OutcomeCode) : (refuseLength o b).i = b.i := rfl
@[simp] theorem refuseLength_outcome (o : OutcomeCode) : (refuseLength o b).outcome = o := rfl
@[simp] theorem refuseLength_rej (o : OutcomeCode) : (refuseLength o b).rej = b.rej := rfl
@[simp] theorem refuseLength_rlen (o : OutcomeCode) : (refuseLength o b).rlen = 0 := rfl
@[simp] theorem refuseLength_perr (o : OutcomeCode) : (refuseLength o b).perr = 0 := rfl

@[simp] theorem reject_A : (reject b).A = b.A := rfl
@[simp] theorem reject_R : (reject b).R = b.R := rfl
@[simp] theorem reject_K : (reject b).K = b.K := rfl
@[simp] theorem reject_KLEN : (reject b).KLEN = b.KLEN := rfl
@[simp] theorem reject_DLEN : (reject b).DLEN = b.DLEN := rfl
@[simp] theorem reject_phase : (reject b).phase = b.phase := rfl
@[simp] theorem reject_sub : (reject b).sub = b.sub := rfl
@[simp] theorem reject_mode : (reject b).mode = b.mode := rfl
@[simp] theorem reject_n : (reject b).n = b.n := rfl
@[simp] theorem reject_j : (reject b).j = b.j := rfl
@[simp] theorem reject_i : (reject b).i = b.i := rfl
@[simp] theorem reject_outcome : (reject b).outcome = b.outcome := rfl
@[simp] theorem reject_rej : (reject b).rej = true := rfl
@[simp] theorem reject_rlen : (reject b).rlen = b.rlen := rfl
@[simp] theorem reject_perr : (reject b).perr = b.perr := rfl

@[simp] theorem issue_A : (issue b).A = b.A := rfl
@[simp] theorem issue_R : (issue b).R = b.R := rfl
@[simp] theorem issue_K : (issue b).K = b.K := rfl
@[simp] theorem issue_KLEN : (issue b).KLEN = b.KLEN := rfl
@[simp] theorem issue_DLEN : (issue b).DLEN = b.DLEN := rfl
@[simp] theorem issue_phase : (issue b).phase = b.phase := rfl
@[simp] theorem issue_sub : (issue b).sub = .wait := rfl
@[simp] theorem issue_mode : (issue b).mode = b.mode := rfl
@[simp] theorem issue_n : (issue b).n = b.n := rfl
@[simp] theorem issue_j : (issue b).j = b.j := rfl
@[simp] theorem issue_i : (issue b).i = b.i := rfl
@[simp] theorem issue_outcome : (issue b).outcome = b.outcome := rfl
@[simp] theorem issue_rej : (issue b).rej = b.rej := rfl
@[simp] theorem issue_rlen : (issue b).rlen = b.rlen := rfl
@[simp] theorem issue_perr : (issue b).perr = b.perr := rfl

@[simp] theorem acceptStart_wrap_A : (acceptStart .wrap b).A = Config.icv := rfl
@[simp] theorem acceptStart_wrap_R : (acceptStart .wrap b).R = b.R := rfl
@[simp] theorem acceptStart_wrap_K : (acceptStart .wrap b).K = b.K := rfl
@[simp] theorem acceptStart_wrap_KLEN : (acceptStart .wrap b).KLEN = b.KLEN := rfl
@[simp] theorem acceptStart_wrap_DLEN : (acceptStart .wrap b).DLEN = b.DLEN := rfl
@[simp] theorem acceptStart_wrap_phase : (acceptStart .wrap b).phase = .busy := rfl
@[simp] theorem acceptStart_wrap_sub : (acceptStart .wrap b).sub = .issue := rfl
@[simp] theorem acceptStart_wrap_mode : (acceptStart .wrap b).mode = .wrap := rfl
@[simp] theorem acceptStart_wrap_n : (acceptStart .wrap b).n = semiblockCount .wrap b.DLEN := rfl
@[simp] theorem acceptStart_wrap_j : (acceptStart .wrap b).j = 0 := rfl
@[simp] theorem acceptStart_wrap_i : (acceptStart .wrap b).i = 0 := rfl
@[simp] theorem acceptStart_wrap_outcome : (acceptStart .wrap b).outcome = .none := rfl
@[simp] theorem acceptStart_wrap_rej : (acceptStart .wrap b).rej = b.rej := rfl
@[simp] theorem acceptStart_wrap_rlen : (acceptStart .wrap b).rlen = 0 := rfl
@[simp] theorem acceptStart_wrap_perr : (acceptStart .wrap b).perr = 0 := rfl

@[simp] theorem acceptStart_unwrap_A : (acceptStart .unwrap b).A = b.A := rfl
@[simp] theorem acceptStart_unwrap_R : (acceptStart .unwrap b).R = b.R := rfl
@[simp] theorem acceptStart_unwrap_K : (acceptStart .unwrap b).K = b.K := rfl
@[simp] theorem acceptStart_unwrap_KLEN : (acceptStart .unwrap b).KLEN = b.KLEN := rfl
@[simp] theorem acceptStart_unwrap_DLEN : (acceptStart .unwrap b).DLEN = b.DLEN := rfl
@[simp] theorem acceptStart_unwrap_phase : (acceptStart .unwrap b).phase = .busy := rfl
@[simp] theorem acceptStart_unwrap_sub : (acceptStart .unwrap b).sub = .issue := rfl
@[simp] theorem acceptStart_unwrap_mode : (acceptStart .unwrap b).mode = .unwrap := rfl
@[simp] theorem acceptStart_unwrap_n : (acceptStart .unwrap b).n = semiblockCount .unwrap b.DLEN := rfl
@[simp] theorem acceptStart_unwrap_j : (acceptStart .unwrap b).j = 5 := rfl
@[simp] theorem acceptStart_unwrap_i : (acceptStart .unwrap b).i = BitVec.ofNat 2 ((semiblockCount .unwrap b.DLEN).toNat - 1) := rfl
@[simp] theorem acceptStart_unwrap_outcome : (acceptStart .unwrap b).outcome = .none := rfl
@[simp] theorem acceptStart_unwrap_rej : (acceptStart .unwrap b).rej = b.rej := rfl
@[simp] theorem acceptStart_unwrap_rlen : (acceptStart .unwrap b).rlen = 0 := rfl
@[simp] theorem acceptStart_unwrap_perr : (acceptStart .unwrap b).perr = 0 := rfl

@[simp] theorem Regs.noRej_A : (b.noRej).A = b.A := rfl
@[simp] theorem Regs.noRej_R : (b.noRej).R = b.R := rfl
@[simp] theorem Regs.noRej_K : (b.noRej).K = b.K := rfl
@[simp] theorem Regs.noRej_KLEN : (b.noRej).KLEN = b.KLEN := rfl
@[simp] theorem Regs.noRej_DLEN : (b.noRej).DLEN = b.DLEN := rfl
@[simp] theorem Regs.noRej_phase : (b.noRej).phase = b.phase := rfl
@[simp] theorem Regs.noRej_sub : (b.noRej).sub = b.sub := rfl
@[simp] theorem Regs.noRej_mode : (b.noRej).mode = b.mode := rfl
@[simp] theorem Regs.noRej_n : (b.noRej).n = b.n := rfl
@[simp] theorem Regs.noRej_j : (b.noRej).j = b.j := rfl
@[simp] theorem Regs.noRej_i : (b.noRej).i = b.i := rfl
@[simp] theorem Regs.noRej_outcome : (b.noRej).outcome = b.outcome := rfl
@[simp] theorem Regs.noRej_rej : (b.noRej).rej = false := rfl
@[simp] theorem Regs.noRej_rlen : (b.noRej).rlen = b.rlen := rfl
@[simp] theorem Regs.noRej_perr : (b.noRej).perr = b.perr := rfl

/-- CLEAR leaves the reset registers, whatever it found (R122). -/
@[simp] theorem clearRegs_eq : clearRegs b = Regs.reset := rfl

@[simp] theorem resetRegs_eq : resetRegs b = Regs.reset := rfl

@[simp] theorem Regs.reset_A : Regs.reset.A = 0 := rfl
@[simp] theorem Regs.reset_R : Regs.reset.R = bankZero := rfl
@[simp] theorem Regs.reset_K : Regs.reset.K = bankZero := rfl
@[simp] theorem Regs.reset_KLEN : Regs.reset.KLEN = 0 := rfl
@[simp] theorem Regs.reset_DLEN : Regs.reset.DLEN = 0 := rfl
@[simp] theorem Regs.reset_phase : Regs.reset.phase = .idle := rfl
@[simp] theorem Regs.reset_sub : Regs.reset.sub = .issue := rfl
@[simp] theorem Regs.reset_mode : Regs.reset.mode = .wrap := rfl
@[simp] theorem Regs.reset_n : Regs.reset.n = 0 := rfl
@[simp] theorem Regs.reset_j : Regs.reset.j = 0 := rfl
@[simp] theorem Regs.reset_i : Regs.reset.i = 0 := rfl
@[simp] theorem Regs.reset_outcome : Regs.reset.outcome = .none := rfl
@[simp] theorem Regs.reset_rej : Regs.reset.rej = false := rfl
@[simp] theorem Regs.reset_rlen : Regs.reset.rlen = 0 := rfl
@[simp] theorem Regs.reset_perr : Regs.reset.perr = 0 := rfl

end

section
variable (s : State)

@[simp] theorem State.withRegs_regs (b : Regs) : (s.withRegs b).regs = b := rfl
@[simp] theorem State.withRegs_crsp (b : Regs) : (s.withRegs b).crsp = s.crsp := rfl
@[simp] theorem State.withRegs_rdata (b : Regs) : (s.withRegs b).rdata = s.rdata := rfl
@[simp] theorem State.withRegs_turns (b : Regs) : (s.withRegs b).turns = s.turns := rfl

@[simp] theorem State.retired_regs (b : Regs) : (s.retired b).regs = b := rfl
@[simp] theorem State.retired_crsp (b : Regs) : (s.retired b).crsp = none := rfl
@[simp] theorem State.retired_rdata (b : Regs) : (s.retired b).rdata = s.rdata := rfl
@[simp] theorem State.retired_turns (b : Regs) : (s.retired b).turns = s.turns := rfl

@[simp] theorem State.readSlot_regs (slot : Slot) : (s.readSlot slot).regs = s.regs := rfl
@[simp] theorem State.readSlot_crsp (slot : Slot) : (s.readSlot slot).crsp = s.crsp := rfl
@[simp] theorem State.readSlot_rdata (slot : Slot) : (s.readSlot slot).rdata = hostRead s.regs slot := rfl
@[simp] theorem State.readSlot_turns (slot : Slot) : (s.readSlot slot).turns = s.turns := rfl

@[simp] theorem State.writeSlot_regs (slot : Slot) (v : Semi) : (s.writeSlot slot v).regs = hostWrite s.regs slot v := rfl
@[simp] theorem State.writeSlot_crsp (slot : Slot) (v : Semi) : (s.writeSlot slot v).crsp = s.crsp := rfl
@[simp] theorem State.writeSlot_rdata (slot : Slot) (v : Semi) : (s.writeSlot slot v).rdata = s.rdata := rfl
@[simp] theorem State.writeSlot_turns (slot : Slot) (v : Semi) : (s.writeSlot slot v).turns = s.turns := rfl

@[simp] theorem State.resetStep_regs : (s.resetStep).regs = Regs.reset := rfl
@[simp] theorem State.resetStep_crsp : (s.resetStep).crsp = none := rfl
@[simp] theorem State.resetStep_rdata : (s.resetStep).rdata = s.rdata := rfl
@[simp] theorem State.resetStep_turns : (s.resetStep).turns = s.turns := rfl

@[simp] theorem State.advance_regs : (s.advance).regs = s.regs := rfl
@[simp] theorem State.advance_crsp : (s.advance).crsp = s.crsp := rfl
@[simp] theorem State.advance_rdata : (s.advance).rdata = s.rdata := rfl
@[simp] theorem State.advance_turns : (s.advance).turns = s.turns.tail := rfl

@[simp] theorem State.pushTurn_regs (t : Turn) : (s.pushTurn t).regs = s.regs := rfl
@[simp] theorem State.pushTurn_crsp (t : Turn) : (s.pushTurn t).crsp = s.crsp := rfl
@[simp] theorem State.pushTurn_rdata (t : Turn) : (s.pushTurn t).rdata = s.rdata := rfl
@[simp] theorem State.pushTurn_turns (t : Turn) : (s.pushTurn t).turns = t :: s.turns := rfl

@[simp] theorem State.withTurns_regs (ts : List Turn) : (s.withTurns ts).regs = s.regs := rfl
@[simp] theorem State.withTurns_crsp (ts : List Turn) : (s.withTurns ts).crsp = s.crsp := rfl
@[simp] theorem State.withTurns_rdata (ts : List Turn) : (s.withTurns ts).rdata = s.rdata := rfl
@[simp] theorem State.withTurns_turns (ts : List Turn) : (s.withTurns ts).turns = ts := rfl

@[simp] theorem State.withTurns_withTurns (ts us : List Turn) : (s.withTurns ts).withTurns us = s.withTurns us := rfl
@[simp] theorem State.withTurns_self : s.withTurns s.turns = s := rfl
@[simp] theorem State.withTurns_cons_advance (t : Turn) (ts : List Turn) :
    (s.withTurns (t :: ts)).advance = s.withTurns ts := rfl
@[simp] theorem nextTurn_withTurns_cons (t : Turn) (ts : List Turn) : nextTurn (s.withTurns (t :: ts)) = t := rfl
@[simp] theorem nextTurn_pushTurn (t : Turn) : nextTurn (s.pushTurn t) = t := rfl

end

end Sys2Proof.Machine
end

