-- ==== Sys2Proof/Laws/Ops.lean ====
section
/-! SUPPORT. For each shared operation, once, everything it can do; and what one step of the machine can do. -/

namespace Sys2Proof.Machine

/-! Register banks. -/

/-- A 2-bit index is one of four. -/
theorem bankIndex_cases (q : BitVec 2) : q = 0 ∨ q = 1 ∨ q = 2 ∨ q = 3 := by
  revert q
  decide

@[simp] theorem bankGet_bankSet_same (b : Quad) (q : BitVec 2) (v : Semi) : bankGet (bankSet b q v) q = v := by
  obtain h | h | h | h := bankIndex_cases q
  all_goals subst h; rfl

/-- A write to one register of a bank never changes another (R22). -/
theorem bankGet_bankSet_ne (b : Quad) {q q' : BitVec 2} (v : Semi) (h : q' ≠ q) :
    bankGet (bankSet b q v) q' = bankGet b q' := by
  obtain h0 | h0 | h0 | h0 := bankIndex_cases q
  all_goals
    obtain h1 | h1 | h1 | h1 := bankIndex_cases q'
    all_goals first | (subst h0 h1; exact absurd rfl h) | (subst h0 h1; rfl)

/-- Two banks that read the same are the same. -/
theorem bank_ext {b b' : Quad} (h : ∀ q, bankGet b q = bankGet b' q) : b = b' := by
  have h0 := h 0
  have h1 := h 1
  have h2 := h 2
  have h3 := h 3
  cases b
  cases b'
  simp_all [bankGet]

/-- Writing back what a register holds changes nothing. -/
@[simp] theorem bankSet_bankGet (b : Quad) (q : BitVec 2) : bankSet b q (bankGet b q) = b := by
  obtain h | h | h | h := bankIndex_cases q
  all_goals subst h; rfl

@[simp] theorem bankSet_bankSet (b : Quad) (q : BitVec 2) (v w : Semi) :
    bankSet (bankSet b q v) q w = bankSet b q w := by
  obtain h | h | h | h := bankIndex_cases q
  all_goals subst h; rfl

@[simp] theorem bankGet_zero (q : BitVec 2) : bankGet bankZero q = 0 := by
  obtain h | h | h | h := bankIndex_cases q
  all_goals subst h; rfl

/-! The halves of a cipher block (R62). -/

@[simp] theorem msb64_append (x y : Semi) : msb64 (x ++ y) = x :=
  (extract_append_high x y (by decide)).trans (extract_all x)

@[simp] theorem lsb64_append (x y : Semi) : lsb64 (x ++ y) = y :=
  (extract_append_low x y (by decide)).trans (extract_all y)

@[simp] theorem msb64_append_lsb64 (b : Block128) : msb64 b ++ lsb64 b = b :=
  (extract_append_extract b (by decide)).trans (extract_all b)

/-! Commands and host writes, by phase. -/

/-- What a START does in IDLE: it is refused with one length outcome, or accepted (R118). -/
theorem start_cases (m : Mode) (b : Regs) :
    (∃ o, (o = .invalidKekLen ∨ o = .invalidKeyLen ∨ o = .invalidWrappedLen) ∧ start m b = refuseLength o b) ∨
    (lengthError m b = none ∧ start m b = acceptStart m b) := by
  unfold start
  cases h : lengthError m b with
  | none => exact .inr ⟨rfl, rfl⟩
  | some e =>
    have he : e = .invalidKekLength ∨ e = .invalidKeyLength ∨ e = .invalidWrappedKeyLength := by
      unfold lengthError at h
      cases m <;> simp only at h <;> split at h <;> (try split at h) <;> simp_all
    obtain rfl | rfl | rfl := he
    · exact .inl ⟨_, .inl rfl, rfl⟩
    · exact .inl ⟨_, .inr (.inl rfl), rfl⟩
    · exact .inl ⟨_, .inr (.inr rfl), rfl⟩

/-- The lengths an accepted START has found (R113 to R116). -/
theorem lengthError_none {m : Mode} {b : Regs} (h : lengthError m b = none) :
    (b.KLEN = 16 ∨ b.KLEN = 24 ∨ b.KLEN = 32) ∧
    (m = .wrap → b.DLEN = b.KLEN) ∧ (m = .unwrap → b.DLEN.toNat = b.KLEN.toNat + 8) := by
  unfold lengthError at h
  split at h
  · rename_i hk
    refine ⟨by simpa [kekLegal, or_assoc] using hk, ?_, ?_⟩ <;> rintro rfl <;> simpa using h
  · simp at h

@[simp] theorem command_nop (b : Regs) : command 0#64 b = b := rfl
@[simp] theorem command_wrap (b : Regs) : command 1#64 b = if b.phase = .idle then start .wrap b else reject b := rfl
@[simp] theorem command_unwrap (b : Regs) : command 2#64 b = if b.phase = .idle then start .unwrap b else reject b := rfl
@[simp] theorem command_clear (b : Regs) : command 3#64 b = Regs.reset := rfl

/-- An illegal command word is refused (R110). -/
theorem command_illegal {v : Semi} (h : legalCommand v = false) (b : Regs) : command v b = reject b := by
  simp [command, h]

/-- Everything a command can do outside BUSY (R110). -/
theorem command_cases (v : Semi) (b : Regs) :
    (v = 0 ∧ command v b = b) ∨
    (v = 1 ∧ command v b = if b.phase = .idle then start .wrap b else reject b) ∨
    (v = 2 ∧ command v b = if b.phase = .idle then start .unwrap b else reject b) ∨
    (v = 3 ∧ command v b = Regs.reset) ∨
    (legalCommand v = false ∧ command v b = reject b) := by
  by_cases h : legalCommand v = true
  · have hv := (legalCommand_iff v).1 h
    obtain h | h | h | h : v = 0 ∨ v = 1 ∨ v = 2 ∨ v = 3 := by
      simp only [← BitVec.toNat_inj]
      simp
      omega
    · exact .inl ⟨h, h ▸ command_nop b⟩
    · exact .inr (.inl ⟨h, h ▸ command_wrap b⟩)
    · exact .inr (.inr (.inl ⟨h, h ▸ command_unwrap b⟩))
    · exact .inr (.inr (.inr (.inl ⟨h, h ▸ command_clear b⟩)))
  · have h' : legalCommand v = false := by simpa using h
    exact .inr (.inr (.inr (.inr ⟨h', command_illegal h' b⟩)))

/-- In BUSY every host write is refused (R73). -/
theorem hostWrite_busy {b : Regs} (h : b.phase = .busy) (slot : Slot) (v : Semi) : hostWrite b slot v = reject b := by
  simp [hostWrite, h]

/-- In DONE every host write is refused but a command (R74). -/
theorem hostWrite_done {b : Regs} (h : b.phase = .done) (slot : Slot) (v : Semi) :
    hostWrite b slot v = if slot = .cmd then command v b else reject b := by
  cases slot <;> simp [hostWrite, hostStore, h]

/-- In IDLE a host write is a command, a store, or refused (R71). -/
theorem hostWrite_idle {b : Regs} (h : b.phase = .idle) (slot : Slot) (v : Semi) :
    (slot = .cmd ∧ hostWrite b slot v = command v b) ∨
    (slot ≠ .cmd ∧ hostWrite b slot v = storeSlot b slot v) ∨ (slot ≠ .cmd ∧ hostWrite b slot v = reject b) := by
  cases slot <;> simp [hostWrite, hostStore, h]

/-- A store into a slot the host owns leaves the sequencing and status registers alone (R71). -/
theorem storeSlot_frame (b : Regs) (slot : Slot) (v : Semi) :
    ∃ a r k kl dl, storeSlot b slot v = { b with A := a, R := r, K := k, KLEN := kl, DLEN := dl } := by
  cases slot
  all_goals first
    | exact ⟨b.A, b.R, b.K, _, b.DLEN, rfl⟩
    | exact ⟨b.A, b.R, b.K, b.KLEN, _, rfl⟩
    | exact ⟨b.A, b.R, _, b.KLEN, b.DLEN, rfl⟩
    | exact ⟨_, b.R, b.K, b.KLEN, b.DLEN, rfl⟩
    | exact ⟨b.A, _, b.K, b.KLEN, b.DLEN, rfl⟩

/-- Everything a host write can do to the block (R71). -/
theorem hostWrite_cases (b : Regs) (slot : Slot) (v : Semi) :
    hostWrite b slot v = reject b ∨
    (b.phase ≠ .busy ∧ slot = .cmd ∧ v = 0 ∧ hostWrite b slot v = b) ∨
    (b.phase = .idle ∧ slot = .cmd ∧ v = 1 ∧ hostWrite b slot v = start .wrap b) ∨
    (b.phase = .idle ∧ slot = .cmd ∧ v = 2 ∧ hostWrite b slot v = start .unwrap b) ∨
    (b.phase ≠ .busy ∧ slot = .cmd ∧ v = 3 ∧ hostWrite b slot v = Regs.reset) ∨
    (b.phase = .idle ∧ slot ≠ .cmd ∧ hostWrite b slot v = storeSlot b slot v) := by
  by_cases hs : slot = .cmd
  · subst hs
    by_cases hb : b.phase = .busy
    · exact .inl (hostWrite_busy hb _ _)
    have hw : hostWrite b .cmd v = command v b := by simp [hostWrite, hb]
    rw [hw]
    by_cases hi : b.phase = .idle
    · obtain ⟨h, h'⟩ | ⟨h, h'⟩ | ⟨h, h'⟩ | ⟨h, h'⟩ | ⟨h, h'⟩ := command_cases v b
      · exact .inr (.inl ⟨hb, rfl, h, h'⟩)
      · exact .inr (.inr (.inl ⟨hi, rfl, h, by rw [h', if_pos hi]⟩))
      · exact .inr (.inr (.inr (.inl ⟨hi, rfl, h, by rw [h', if_pos hi]⟩)))
      · exact .inr (.inr (.inr (.inr (.inl ⟨hb, rfl, h, h'⟩))))
      · exact .inl h'
    · obtain ⟨h, h'⟩ | ⟨h, h'⟩ | ⟨h, h'⟩ | ⟨h, h'⟩ | ⟨h, h'⟩ := command_cases v b
      · exact .inr (.inl ⟨hb, rfl, h, h'⟩)
      · exact .inl (by rw [h', if_neg hi])
      · exact .inl (by rw [h', if_neg hi])
      · exact .inr (.inr (.inr (.inr (.inl ⟨hb, rfl, h, h'⟩))))
      · exact .inl h'
  · cases hp : b.phase
    · obtain ⟨h, -⟩ | ⟨-, h⟩ | ⟨-, h⟩ := hostWrite_idle hp slot v
      · exact absurd h hs
      · exact .inr (.inr (.inr (.inr (.inr ⟨rfl, hs, h⟩))))
      · exact .inl h
    · exact .inl (hostWrite_busy hp slot v)
    · exact .inl (by rw [hostWrite_done hp, if_neg hs])

/-! The engine's shared parts. -/

@[simp] theorem selected_iff (b : Regs) (u : Sub) (m : Mode) :
    selected b u m = true ↔ b.phase = .busy ∧ b.sub = u ∧ b.mode = m := by
  simp [selected, and_assoc]

@[simp] theorem outstanding_iff (b : Regs) : outstanding b = true ↔ b.phase = .busy ∧ b.sub = .wait := by
  simp [outstanding]

/-- `NextW` in its three cases (R141). -/
theorem nextWrap_cases (b : Regs) :
    (b.i.toNat < b.n.toNat - 1 ∧ nextWrap b = { b with i := b.i + 1, sub := .issue }) ∨
    (¬ b.i.toNat < b.n.toNat - 1 ∧ b.j.toNat < 5 ∧ nextWrap b = { b with j := b.j + 1, i := 0, sub := .issue }) ∨
    (¬ b.i.toNat < b.n.toNat - 1 ∧ ¬ b.j.toNat < 5 ∧ nextWrap b = { b with sub := .fin }) := by
  unfold nextWrap
  split
  · exact .inl ⟨‹_›, rfl⟩
  · split
    · exact .inr (.inl ⟨‹_›, ‹_›, rfl⟩)
    · exact .inr (.inr ⟨‹_›, ‹_›, rfl⟩)

/-- `NextU` in its three cases (R142). -/
theorem nextUnwrap_cases (b : Regs) :
    (0 < b.i.toNat ∧ nextUnwrap b = { b with i := b.i - 1, sub := .issue }) ∨
    (¬ 0 < b.i.toNat ∧ 0 < b.j.toNat ∧
      nextUnwrap b = { b with j := b.j - 1, i := BitVec.ofNat 2 (b.n.toNat - 1), sub := .issue }) ∨
    (¬ 0 < b.i.toNat ∧ ¬ 0 < b.j.toNat ∧ nextUnwrap b = { b with sub := .fin }) := by
  unfold nextUnwrap
  split
  · exact .inl ⟨‹_›, rfl⟩
  · split
    · exact .inr (.inl ⟨‹_›, ‹_›, rfl⟩)
    · exact .inr (.inr ⟨‹_›, ‹_›, rfl⟩)

/-- The end of an unwrap, by the comparison with the ICV (R174). -/
theorem finishUnwrap_cases (b : Regs) :
    (b.A = Config.icv ∧ finishUnwrap b = leaveBusy { b with outcome := .ok, rlen := b.DLEN - 8 }) ∨
    (b.A ≠ Config.icv ∧ finishUnwrap b = raiseOutcome .integrityFailure b) := by
  unfold finishUnwrap
  split
  · exact .inl ⟨‹_›, rfl⟩
  · exact .inr ⟨‹_›, rfl⟩

/-- A micro-operation that is selected acts; one that is not changes nothing (R97). -/
theorem engineStep_cases (s : State) (u : Sub) (m : Mode) (op : Regs → Regs) :
    (s.regs.phase = .busy ∧ s.regs.sub = u ∧ s.regs.mode = m ∧ s.engineStep u m op = s.withRegs (op s.regs)) ∨
    s.engineStep u m op = s := by
  unfold State.engineStep
  split
  · rename_i h
    obtain ⟨h1, h2, h3⟩ := (selected_iff _ _ _).1 h
    exact .inl ⟨h1, h2, h3, rfl⟩
  · exact .inr rfl

/-- A RETIRE that is selected and has a response consumes it; otherwise it changes nothing (R97). -/
theorem retireStep_cases (s : State) (m : Mode) (op : Regs → Response → Regs) :
    (∃ r, s.crsp = some r ∧ s.regs.phase = .busy ∧ s.regs.sub = .wait ∧ s.regs.mode = m ∧
      s.retireStep m op = s.retired (op s.regs r)) ∨
    s.retireStep m op = s := by
  unfold State.retireStep
  split
  · rename_i r hr
    split
    · rename_i h
      obtain ⟨h1, h2, h3⟩ := (selected_iff _ _ _).1 h
      exact .inl ⟨r, hr, h1, h2, h3, rfl⟩
    · exact .inr rfl
  · exact .inr rfl

/-- A response is taken for an unanswered request and ignored otherwise (R195, R196 (a)). -/
theorem takeResponse_cases (s : State) (r : Response) :
    (s.regs.phase = .busy ∧ s.regs.sub = .wait ∧ s.crsp = none ∧ s.takeResponse r = { s with crsp := some r }) ∨
    s.takeResponse r = s := by
  unfold State.takeResponse
  split
  · rename_i h
    simp only [Bool.and_eq_true, outstanding_iff, Option.isNone_iff_eq_none] at h
    exact .inl ⟨h.1.1, h.1.2, h.2, rfl⟩
  · exact .inr rfl

/-! The meanings. -/

section
variable (s : State)
@[simp] theorem exec_rd (slot : Slot) : exec (.rd slot) s = .next (s.readSlot slot) := rfl
@[simp] theorem exec_wr (slot : Slot) (v : Semi) : exec (.wr slot v) s = .next (s.writeSlot slot v) := rfl
@[simp] theorem exec_nop : exec .nop s = .next (s.writeSlot .cmd 0) := rfl
@[simp] theorem exec_wrap : exec .wrap s = .next (s.writeSlot .cmd 1) := rfl
@[simp] theorem exec_unwrap : exec .unwrap s = .next (s.writeSlot .cmd 2) := rfl
@[simp] theorem exec_clear : exec .clear s = .next (s.writeSlot .cmd 3) := rfl
@[simp] theorem exec_wIssue : exec .wIssue s = .next (s.engineStep .issue .wrap issue) := rfl
@[simp] theorem exec_wRetire : exec .wRetire s = .next (s.retireStep .wrap retireWrap) := rfl
@[simp] theorem exec_wFin : exec .wFin s = .next (s.engineStep .fin .wrap finishWrap) := rfl
@[simp] theorem exec_uIssue : exec .uIssue s = .next (s.engineStep .issue .unwrap issue) := rfl
@[simp] theorem exec_uRetire : exec .uRetire s = .next (s.retireStep .unwrap retireUnwrap) := rfl
@[simp] theorem exec_uFin : exec .uFin s = .next (s.engineStep .fin .unwrap finishUnwrap) := rfl
@[simp] theorem exec_cRespond (e : BitVec 1) (c : BitVec 16) (b : Block128) :
    exec (.cRespond e c b) s = .next (s.takeResponse (responseOf e c b)) := rfl
@[simp] theorem exec_reset : exec .reset s = .next s.resetStep := rfl
end

/-! One step of the machine. -/

/-- A host word is a read, or the write that its fields spell out, whichever operation it decodes to. -/
theorem exec_decodeHostx (w : BitVec 69) (s : State) :
    exec (decodeHostx w) s =
      if w.extractLsb' 68 1 = 0#1 then .next (s.readSlot (slotOfIdx (w.extractLsb' 64 4)))
      else .next (s.writeSlot (slotOfIdx (w.extractLsb' 64 4)) (w.extractLsb' 0 64)) := by
  unfold decodeHostx
  simp only
  split
  · rfl
  · generalize slotOfIdx (w.extractLsb' 64 4) = slot
    generalize w.extractLsb' 0 64 = v
    cases slot
    case cmd =>
      obtain ⟨h, -⟩ | ⟨h, -⟩ | ⟨h, -⟩ | ⟨h, -⟩ | ⟨h, -⟩ := command_cases v s.regs
      · subst h; rfl
      · subst h; rfl
      · subst h; rfl
      · subst h; rfl
      · simp [decodeCmd, h]
    all_goals rfl

/-- What the engine's turn does in BUSY: the micro-operation of its `sub` and `mode` (R97). -/
theorem decode_ustate_busy (b : Regs) (h : b.phase = .busy) :
    decode (.ustate (ustate b)) = .ok (match b.sub, b.mode with
      | .issue, .wrap => .wIssue
      | .wait, .wrap => .wRetire
      | .fin, .wrap => .wFin
      | .issue, .unwrap => .uIssue
      | .wait, .unwrap => .uRetire
      | .fin, .unwrap => .uFin) := by
  cases hs : b.sub <;> cases hm : b.mode <;> simp only [ustate, h, hs, hm] <;> decide

/-- The engine has no step outside BUSY (R97). -/
theorem decode_ustate_rest (b : Regs) (h : b.phase ≠ .busy) :
    decode (.ustate (ustate b)) = .error .noEngineStep := by
  cases hp : b.phase <;> cases hs : b.sub <;> cases hm : b.mode <;> simp only [ustate, hp, hs, hm] <;>
    first | exact absurd hp h | decide

/-- The engine's turn. -/
theorem stepWith_engine (c : Cipher) (s : State) (h : nextTurn s = .engine) :
    stepWith c s = .next
      (if s.regs.phase = .busy then
        match s.regs.sub, s.regs.mode with
        | .issue, .wrap => s.advance.withRegs (issue s.regs)
        | .issue, .unwrap => s.advance.withRegs (issue s.regs)
        | .wait, .wrap => s.advance.retireStep .wrap retireWrap
        | .wait, .unwrap => s.advance.retireStep .unwrap retireUnwrap
        | .fin, .wrap => s.advance.withRegs (finishWrap s.regs)
        | .fin, .unwrap => s.advance.withRegs (finishUnwrap s.regs)
      else s.advance) := by
  by_cases hp : s.regs.phase = .busy
  · have hd := decode_ustate_busy s.regs hp
    cases hs : s.regs.sub <;> cases hm : s.regs.mode <;>
      simp [stepWith, fetch, fetchWord, h, hd, hp, hs, hm, Except.toOption, State.engineStep, selected]
  · simp [stepWith, fetch, fetchWord, h, decode_ustate_rest s.regs hp, hp, Except.toOption]

/-- A host turn. -/
theorem stepWith_host (c : Cipher) (s : State) (w : BitVec 69) (h : nextTurn s = .host w) :
    stepWith c s =
      if w.extractLsb' 68 1 = 0#1 then .next (s.advance.readSlot (slotOfIdx (w.extractLsb' 64 4)))
      else .next (s.advance.writeSlot (slotOfIdx (w.extractLsb' 64 4)) (w.extractLsb' 0 64)) := by
  simp only [stepWith, fetch, fetchWord, h, decode, Except.toOption]
  exact exec_decodeHostx w s.advance

/-- The adapter's turn: it answers the outstanding request as the cipher says (R195). -/
theorem stepWith_answer (c : Cipher) (s : State) (h : nextTurn s = .answer) :
    stepWith c s = .next
      (if outstanding s.regs then s.advance.takeResponse (c (requestFields s.regs)) else s.advance) := by
  by_cases ho : outstanding s.regs = true
  · obtain ⟨e, k, b, hd, hr⟩ := decode_responseWord (c (requestFields s.regs))
    simp [stepWith, fetch, fetchWord, h, cipherRequest, ho, hd, Except.toOption, hr]
  · simp [stepWith, fetch, fetchWord, h, cipherRequest, ho]

/-- A word on the response channel (R194, R196). -/
theorem stepWith_respond (c : Cipher) (s : State) (w : BitVec 145) (h : nextTurn s = .respond w) :
    stepWith c s = .next (s.advance.takeResponse
      (responseOf (w.extractLsb' 144 1) (w.extractLsb' 128 16) (w.extractLsb' 0 128))) := by
  simp [stepWith, fetch, fetchWord, h, decode, decodeCrsp, Except.toOption]

/-- The platform's turn (R240). -/
theorem stepWith_rst (c : Cipher) (s : State) (h : nextTurn s = .rst) :
    stepWith c s = .next s.advance.resetStep := by
  simp [stepWith, fetch, fetchWord, h, decode, Except.toOption]

/-- Everything one step can do. -/
theorem stepWith_cases {c : Cipher} {s t : State} (h : stepWith c s = .next t) :
    t = s.advance ∨
    (∃ w slot, nextTurn s = .host w ∧ isRead (.host w) = true ∧ t = s.advance.readSlot slot) ∨
    (∃ w slot v, nextTurn s = .host w ∧ w.extractLsb' 68 1 = 1#1 ∧ slot = slotOfIdx (w.extractLsb' 64 4) ∧
      v = w.extractLsb' 0 64 ∧ t = s.advance.writeSlot slot v) ∨
    (nextTurn s = .engine ∧ s.regs.phase = .busy ∧ s.regs.sub = .issue ∧ t = s.advance.withRegs (issue s.regs)) ∨
    (∃ r, nextTurn s = .engine ∧ s.regs.phase = .busy ∧ s.regs.sub = .wait ∧ s.crsp = some r ∧
      ((s.regs.mode = .wrap ∧ t = s.advance.retired (retireWrap s.regs r)) ∨
       (s.regs.mode = .unwrap ∧ t = s.advance.retired (retireUnwrap s.regs r)))) ∨
    (nextTurn s = .engine ∧ s.regs.phase = .busy ∧ s.regs.sub = .fin ∧
      ((s.regs.mode = .wrap ∧ t = s.advance.withRegs (finishWrap s.regs)) ∨
       (s.regs.mode = .unwrap ∧ t = s.advance.withRegs (finishUnwrap s.regs)))) ∨
    (∃ r, (nextTurn s = .answer ∨ ∃ w, nextTurn s = .respond w) ∧ s.regs.phase = .busy ∧ s.regs.sub = .wait ∧
      s.crsp = none ∧ t = { s.advance with crsp := some r }) ∨
    (nextTurn s = .rst ∧ t = s.advance.resetStep) := by
  cases ht : nextTurn s with
  | host w =>
    rw [stepWith_host c s w ht] at h
    split at h
    · cases h
      exact .inr (.inl ⟨w, _, rfl, by simpa [isRead], rfl⟩)
    · rename_i hw
      cases h
      have hw1 : w.extractLsb' 68 1 = 1#1 := by
        generalize w.extractLsb' 68 1 = x at hw ⊢
        revert x; decide
      exact .inr (.inr (.inl ⟨w, _, _, rfl, hw1, rfl, rfl, rfl⟩))
  | engine =>
    rw [stepWith_engine c s ht] at h
    cases h
    split
    · rename_i hp
      cases hs : s.regs.sub <;> cases hm : s.regs.mode <;> simp only
      all_goals try tauto
      · obtain ⟨r, h1, -, -, -, h5⟩ | h := retireStep_cases s.advance .wrap retireWrap
        · rw [h5]
          exact .inr (.inr (.inr (.inr (.inl ⟨r, trivial, hp, trivial, h1, .inl ⟨trivial, rfl⟩⟩))))
        · exact .inl h
      · obtain ⟨r, h1, -, -, -, h5⟩ | h := retireStep_cases s.advance .unwrap retireUnwrap
        · rw [h5]
          exact .inr (.inr (.inr (.inr (.inl ⟨r, trivial, hp, trivial, h1, .inr ⟨trivial, rfl⟩⟩))))
        · exact .inl h
    · exact .inl rfl
  | answer =>
    rw [stepWith_answer c s ht] at h
    cases h
    split
    · obtain ⟨h1, h2, h3, h4⟩ | h := takeResponse_cases s.advance (c (requestFields s.regs))
      · rw [h4]
        exact .inr (.inr (.inr (.inr (.inr (.inr (.inl ⟨_, .inl rfl, h1, h2, h3, rfl⟩))))))
      · exact .inl h
    · exact .inl rfl
  | respond w =>
    rw [stepWith_respond c s w ht] at h
    cases h
    obtain ⟨h1, h2, h3, h4⟩ | h := takeResponse_cases s.advance
      (responseOf (w.extractLsb' 144 1) (w.extractLsb' 128 16) (w.extractLsb' 0 128))
    · rw [h4]
      exact .inr (.inr (.inr (.inr (.inr (.inr (.inl ⟨_, .inr ⟨w, rfl⟩, h1, h2, h3, rfl⟩))))))
    · exact .inl h
  | rst =>
    rw [stepWith_rst c s ht] at h
    cases h
    exact .inr (.inr (.inr (.inr (.inr (.inr (.inr ⟨rfl, rfl⟩))))))

/-! Runs. -/

/-- A run is its first step and the rest. -/
theorem run_succ {c : Cipher} {s t : State} (k : Nat) (h : stepWith c s = .next t) :
    (coreWith c).run (k + 1) s = (coreWith c).run k t := by
  have h' : (coreWith c).step s = .next t := h
  simp only [Host.Core.run, h']

@[simp] theorem run_zero (c : Cipher) (s : State) : (coreWith c).run 0 s = .next s := rfl

/-- A run of `k + l` steps is a run of `k` and then one of `l`. -/
theorem run_add {c : Cipher} {s t : State} (k l : Nat) (h : (coreWith c).run k s = .next t) :
    (coreWith c).run (k + l) s = (coreWith c).run l t := by
  induction k generalizing s with
  | zero => cases h; simp
  | succ k ih =>
    rw [Nat.add_right_comm]
    cases hs : (coreWith c).step s with
    | next u =>
      simp only [Host.Core.run, hs] at h ⊢
      exact ih h
    | fault r => cases r
    | refused r =>
      simp only [Host.Core.run, hs] at h
      cases h

end Sys2Proof.Machine
end

