-- ==== Sys2Proof/Laws/PerInstr.lean ====
section
/-! SUPPORT. The family RoundTrip: an operation's word decodes to the operation, one lemma per constructor. -/

namespace Sys2Proof.Laws.RoundTrip

/-- The word of a well-formed operation decodes to it. -/
def Statement (i : Instr) : Prop := i.wellFormed = true → decode (encode i) = .ok i

theorem rd (slot : Slot) : Statement (.rd slot) := fun _ => congrArg _ (decodeHostx_read slot 0)

theorem wr (slot : Slot) (wdata : Semi) : Statement (.wr slot wdata) := by
  intro h
  by_cases hs : slot = .cmd
  · subst hs
    have hv : legalCommand wdata = false := by simpa [Instr.wellFormed] using h
    simp [encode, decode, decodeHostx, decodeCmd, hv]
  · exact congrArg _ (decodeHostx_write slot wdata hs)

theorem nop : Statement .nop := fun _ => by decide
theorem wrap : Statement .wrap := fun _ => by decide
theorem unwrap : Statement .unwrap := fun _ => by decide
theorem clear : Statement .clear := fun _ => by decide
theorem wIssue : Statement .wIssue := fun _ => by decide
theorem wRetire : Statement .wRetire := fun _ => by decide
theorem wFin : Statement .wFin := fun _ => by decide
theorem uIssue : Statement .uIssue := fun _ => by decide
theorem uRetire : Statement .uRetire := fun _ => by decide
theorem uFin : Statement .uFin := fun _ => by decide

theorem cRespond (err : BitVec 1) (code : BitVec 16) (block : Block128) : Statement (.cRespond err code block) :=
  fun _ => by simp [encode, decode, decodeCrsp]

theorem reset : Statement .reset := fun _ => by decide

end Sys2Proof.Laws.RoundTrip
end

