-- ==== Sys2Proof/Laws/Script.lean ====
section
/-! SUPPORT. What a host script can do: the turns it takes, what a read shows, where POLL stops and what a call answers. -/

namespace Sys2Proof.Machine

/-! Lengths. -/

/-- A string shorter than 2^64 bytes declares its length. -/
theorem lengthWord_toNat {bytes : List Byte} (h : bytes.length < 2 ^ 64) : (lengthWord bytes).toNat = bytes.length := by
  simp only [lengthWord, BitVec.toNat_ofNat]
  omega

/-- Every string's declared length is stored as its length, saturated at 255: none aliases to a legal one (R27). -/
theorem saturate_lengthWord (bytes : List Byte) : (saturate (lengthWord bytes)).toNat = min bytes.length 255 := by
  simp only [saturate, lengthWord, BitVec.toNat_ofNat]
  omega

/-! Turns one by one. -/

@[simp] theorem takeAll_nil (c : Cipher) (s : State) : s.takeAll c [] = some s := rfl

/-- Turns one after another are the turns of both lists in order. -/
theorem takeAll_append (c : Cipher) (s : State) (ts us : List Turn) :
    s.takeAll c (ts ++ us) = (s.takeAll c ts).bind fun u => u.takeAll c us := by
  induction ts generalizing s with
  | nil => rfl
  | cons t ts ih => simp [State.takeAll, ih, Option.bind_assoc]

/-- A turn is one step of the machine on that turn alone. -/
theorem take_eq_some {c : Cipher} {s u : State} {t : Turn} :
    s.take c t = some u ↔ stepWith c { s with turns := [t] } = .next u := by
  unfold State.take
  split <;> simp_all

/-- What a read line does: the slot's value goes out on `rdata` and the block does not change (R70, R100). -/
theorem take_rdLine (c : Cipher) (s : State) (slot : Slot) :
    s.take c (rdLine slot) = some { s with rdata := hostRead s.regs slot, turns := [] } := by
  have hd : decodeHostx (hostxWord 0 slot 0) = .rd slot := decodeHostx_read slot 0
  rw [take_eq_some]
  show exec (decodeHostx (hostxWord 0 slot 0)) _ = _
  rw [hd]
  rfl

/-- A transaction uses up one gap: the others' turns, then the line (R66). -/
theorem transact_eq_some {c : Cipher} {line : Turn} {x y : Session} {v : Semi} :
    transact c line x = some (v, y) ↔
      ∃ g u, x.gaps = g :: y.gaps ∧ x.state.takeAll c g = some u ∧ u.take c line = some y.state ∧
        v = y.state.rdata := by
  obtain ⟨s, gaps⟩ := x
  obtain ⟨s', gaps'⟩ := y
  cases gaps with
  | nil => simp [transact]
  | cons g gs =>
    simp only [transact, takeAll_append, Option.map_eq_some_iff, Option.bind_eq_some_iff, State.takeAll,
      Option.some.injEq, Prod.mk.injEq, Session.mk.injEq, List.cons.injEq]
    constructor
    · rintro ⟨a, ⟨b, hb, a', ha, rfl⟩, rfl, rfl, rfl⟩
      exact ⟨g, b, ⟨rfl, rfl⟩, hb, ha, rfl⟩
    · rintro ⟨g', u, ⟨rfl, rfl⟩, hu, hs, rfl⟩
      exact ⟨s', ⟨u, hu, s', hs, rfl⟩, rfl, rfl, rfl⟩

/-- A read line answers the slot's value in the state it leaves (R70, R100). -/
theorem transact_rdLine {c : Cipher} {slot : Slot} {x y : Session} {v : Semi}
    (h : transact c (rdLine slot) x = some (v, y)) : v = hostRead y.state.regs slot := by
  obtain ⟨g, u, -, -, hu, rfl⟩ := transact_eq_some.1 h
  rw [take_rdLine, Option.some.injEq] at hu
  rw [← hu]

/-! POLL. -/

/-- The phase field of STATUS (R42). -/
theorem statusView_phase (b : Regs) : (statusView b).extractLsb' 0 2 = phaseCode b.phase := by
  apply BitVec.eq_of_getLsbD_eq
  intro k hk
  simp only [statusView, BitVec.getLsbD_extractLsb', BitVec.getLsbD_setWidth, BitVec.getLsbD_append]
  simp [hk]
  omega

/-- POLL's stopping test is that the phase is not BUSY (R101). -/
theorem pollEnds_statusView (b : Regs) : pollEnds (statusView b) = true ↔ b.phase ≠ .busy := by
  rw [pollEnds, statusView_phase]
  cases b.phase <;> decide

/-- Everything POLL can answer: it read STATUS once in each gap it used, saw BUSY in all of them but the last, and
stopped there, with that value and the block as it then was (R101, R102). -/
theorem poll_spec {c : Cipher} {s : State} {gaps : List (List Turn)} {v : Semi} {x : Session}
    (h : poll c s gaps = some (v, x)) :
    v = statusView x.state.regs ∧ x.state.regs.phase ≠ .busy ∧ ∃ used, used ≠ [] ∧ gaps = used ++ x.gaps := by
  induction gaps generalizing s with
  | nil => cases h
  | cons g gs ih =>
    unfold poll at h
    split at h
    · cases h
    · rename_i u hu
      rw [takeAll_append, Option.bind_eq_some_iff] at hu
      obtain ⟨w, -, hw⟩ := hu
      simp only [State.takeAll, take_rdLine, Option.bind_some, Option.some.injEq] at hw
      split at h
      · rename_i he
        cases h
        subst hw
        exact ⟨rfl, (pollEnds_statusView _).1 he, [g], by simp, rfl⟩
      · obtain ⟨h1, h2, used, -, h3⟩ := ih h
        exact ⟨h1, h2, g :: used, by simp, by rw [h3]; rfl⟩

/-- POLL reads on while BUSY is read (R101). -/
theorem poll_busy {c : Cipher} {s u : State} {g : List Turn} (gs : List (List Turn))
    (hu : s.takeAll c g = some u) (hb : u.regs.phase = .busy) :
    poll c s (g :: gs) = poll c { u with rdata := statusView u.regs, turns := [] } gs := by
  have he : pollEnds (statusView u.regs) = false := by
    have := (pollEnds_statusView u.regs).not.2 (not_not.2 hb)
    simpa using this
  simp [poll, takeAll_append, hu, State.takeAll, take_rdLine, hostRead, he]

/-! The calls. -/

/-- What a call answers comes from the value its POLL read, in a phase other than BUSY, and its last transaction is
CLEAR (R104, R105). -/
theorem call_spec {c : Cipher} {lines : List Turn} {result : Semi → Session → Option (CallResult × Session)}
    {x e : Session} {r : CallResult} (h : call c lines result x = some (r, e)) :
    ∃ vs y z z' w, transactAll c lines x = some (vs, y) ∧ poll c y.state y.gaps = some (statusView z.state.regs, z) ∧
      z.state.regs.phase ≠ .busy ∧ result (statusView z.state.regs) z = some (r, z') ∧
      transact c clearLine z' = some (w, e) := by
  simp only [call, Option.bind_eq_some_iff, Option.map_eq_some_iff, Prod.exists, Prod.mk.injEq] at h
  obtain ⟨vs, y, hy, v, z, hz, r', z', hr, w, e', he, rfl, rfl⟩ := h
  obtain ⟨rfl, hb, -⟩ := poll_spec hz
  exact ⟨vs, y, z, z', w, hy, hz, hb, hr, he⟩

end Sys2Proof.Machine
end

