-- ==== Sys2Proof/Tests/Slice0.lean ====
section
/-! SUPPORT. The model's own tests: well-formedness, words written out from the spec's encodings, single steps taken from
the spec's examples and vectors (each comment names its source), and for every statement with hypotheses a witness. -/

namespace Sys2Proof.Tests

open Sys2Proof Sys2Proof.Machine

/-! Helpers: small states. -/

/-- In IDLE with these lengths, everything else as after reset. -/
def idle (klen dlen : BitVec 8) : State :=
  { State.reset with regs := { Regs.reset with KLEN := klen, DLEN := dlen } }

/-- A running wrap with `KLEN = DLEN = 8n`. -/
def wrapping (u : Sub) (n j : BitVec 3) (i : BitVec 2) : State :=
  { State.reset with regs := { Regs.reset with
    A := Config.icv, R := ⟨0x0011223344556677, 0x8899AABBCCDDEEFF, 3, 4⟩
    K := ⟨0x0001020304050607, 0x08090A0B0C0D0E0F, 5, 6⟩
    KLEN := 8 * n.setWidth 8, DLEN := 8 * n.setWidth 8
    phase := .busy, sub := u, mode := .wrap, n := n, j := j, i := i } }

/-- A running unwrap with `KLEN = 8n` and `DLEN = 8n + 8`, on the wrapped key of V1. -/
def unwrapping (u : Sub) (n j : BitVec 3) (i : BitVec 2) : State :=
  { State.reset with regs := { Regs.reset with
    A := 0x1FA68B0A8112B447, R := ⟨0xAEF34BD8FB5A7B82, 0x9D3E862371D2CFE5, 3, 4⟩
    K := ⟨0x0001020304050607, 0x08090A0B0C0D0E0F, 5, 6⟩
    KLEN := 8 * n.setWidth 8, DLEN := 8 * n.setWidth 8 + 8
    phase := .busy, sub := u, mode := .unwrap, n := n, j := j, i := i } }

/-- In DONE after a successful wrap of a 16-byte key. -/
def wrapped : State :=
  { State.reset with regs := { Regs.reset with
    A := 0xA6A6A6A6A6A6A6AA, R := ⟨1, 2, 3, 4⟩, KLEN := 16, DLEN := 16
    phase := .done, n := 2, outcome := .ok, rlen := 24 } }

/-- The state with a response on the cipher port. -/
def answered (s : State) (r : Response) : State := { s with crsp := some r }

/-- The state with another accumulator. -/
def withA (s : State) (a : Semi) : State := { s with regs := { s.regs with A := a } }

/-- The next state, if there is one. -/
def after : Host.Outcome State Fault Refusal → Option State
  | .next t => some t
  | .fault _ => none
  | .refused _ => none

/-- STATUS after an operation. -/
def statusAfter (o : Host.Outcome State Fault Refusal) : Option Semi := (after o).map fun t => statusView t.regs

/-- The identity cipher, `IDENT` of spec/95_test_vectors.md section 6. -/
def identCipher : Cipher := totalCipher fun q => q.block

/-! Well-formedness. Its one check refuses a `WR` to slot 0 that carries a legal command word (R96, R98). -/

theorem test_wellFormed_refuses_legal_command_as_wr :
    (Instr.wr .cmd 0).wellFormed = false ∧ (Instr.wr .cmd 1).wellFormed = false ∧
    (Instr.wr .cmd 2).wellFormed = false ∧ (Instr.wr .cmd 3).wellFormed = false := by decide

theorem test_wellFormed_allows_illegal_command_as_wr :
    (Instr.wr .cmd 4).wellFormed = true ∧ (Instr.wr .cmd 0x0000000100000001).wellFormed = true ∧
    (Instr.wr .klen 1).wellFormed = true := by decide

/-! Decoding. Each word is written out from its format's table; the HOSTX words with a line number are those of
spec/95_test_vectors.md section 7. -/

-- R86: we = 1, idx = 2, wdata = 0x10 (script line `WR KLEN, 0x10`)
theorem test_decode_wr_klen : decode (.hostx 0x120000000000000010#69) = .ok (.wr .klen 0x10) := by decide
-- R86: we = 1, idx = 0b0101, wdata = 0x08090A0B0C0D0E0F
theorem test_decode_wr_k1 :
    decode (.hostx (1#1 ++ 0b0101#4 ++ 0x08090A0B0C0D0E0F#64)) = .ok (.wr (.k 1) 0x08090A0B0C0D0E0F) := by decide
-- R86: we = 1, idx = 0b1100, the last data register
theorem test_decode_wr_r3 : decode (.hostx (1#1 ++ 0b1100#4 ++ 7#64)) = .ok (.wr (.r 3) 7) := by decide
-- R86: we = 0, idx = 8; the data field of a read is not looked at
theorem test_decode_rd_a : decode (.hostx (0#1 ++ 0b1000#4 ++ 0xFFFFFFFFFFFFFFFF#64)) = .ok (.rd .a) := by decide
-- R86, R75: we = 0, idx = 15
theorem test_decode_rd_s15 : decode (.hostx (0#1 ++ 0b1111#4 ++ 0#64)) = .ok (.rd .s15) := by decide
-- R87: the four command values, each as a write to slot 0
theorem test_decode_commands :
    decode (.hostx 0x100000000000000000#69) = .ok .nop ∧ decode (.hostx 0x100000000000000001#69) = .ok .wrap ∧
    decode (.hostx 0x100000000000000002#69) = .ok .unwrap ∧ decode (.hostx 0x100000000000000003#69) = .ok .clear := by
  decide
-- R87: the four command values in the CMD format; R98: 4 and a value with only bit 32 above bits 1..0 are illegal
theorem test_decode_cmd :
    decode (.cmd 0) = .ok .nop ∧ decode (.cmd 1) = .ok .wrap ∧ decode (.cmd 2) = .ok .unwrap ∧
    decode (.cmd 3) = .ok .clear ∧ decode (.cmd 4) = .error .illegalCommandWord ∧
    decode (.cmd 0x0000000100000001) = .error .illegalCommandWord := by decide
-- R98: on the host port an illegal command word is a write that the block refuses
theorem test_decode_illegal_command_on_hostx :
    decode (.hostx 0x100000000000000004#69) = .ok (.wr .cmd 4) := by decide
-- R97, the wrap column
theorem test_decode_ustate_wrap :
    decode (.ustate 0b01000#5) = .ok .wIssue ∧ decode (.ustate 0b01010#5) = .ok .wRetire ∧
    decode (.ustate 0b01100#5) = .ok .wFin := by decide
-- R97, the unwrap column
theorem test_decode_ustate_unwrap :
    decode (.ustate 0b01001#5) = .ok .uIssue ∧ decode (.ustate 0b01011#5) = .ok .uRetire ∧
    decode (.ustate 0b01101#5) = .ok .uFin := by decide
-- R97, the rows without a step
theorem test_decode_ustate_none :
    decode (.ustate 0b00000#5) = .error .noEngineStep ∧ decode (.ustate 0b10111#5) = .error .noEngineStep ∧
    decode (.ustate 0b01110#5) = .error .unreachableControlState ∧
    decode (.ustate 0b11000#5) = .error .unreachableControlState := by decide
-- R194: err in bit 144, code in bits 143 to 128, block in bits 127 to 0
theorem test_decode_crsp :
    decode (.crsp 0x1BEEF00000000000000000000000000000005#145) = .ok (.cRespond 1 0xBEEF 5) := by decide
-- R96, R240: no bit pattern
theorem test_decode_rst : decode .rst = .ok .reset := by decide
-- R191: bit 386 is dir (DEC), bits 385 to 384 ksz (1), bits 383 to 376 the first key byte (0x80)
theorem test_requestWord_fields :
    (requestWord { dir := .dec, ksz := 1
                   key := 0x800102030405060708090A0B0C0D0E0F00000000000000000000000000000000
                   block := 0xA6A6A6A6A6A6A6A60011223344556677 }).extractLsb' 376 11 = 0b10110000000#11 := by
  decide
-- the table's numbering: 69 bits of a WR row, 5 of W.ISSUE, 145 of C.RESPOND, none of RESET
theorem test_decodeTableWord :
    decodeTableWord 72 0x190011223344556677 = some (.wr (.r 0) 0x0011223344556677) ∧
    decodeTableWord 8 0b01000 = some .wIssue ∧ decodeTableWord 152 (2 ^ 144) = some (.cRespond 1 0 0) ∧
    decodeTableWord 0 0 = some .reset ∧ decodeTableWord 8 0xFF = none := by decide

-- the first operation after reset, through the fetch: R71's write of R[0], R157's ISSUE, R240's reset
theorem test_withFetchWord :
    (after (stepWith identCipher (State.reset.withFetchWord 72 0x190011223344556677))).map (fun t => t.regs.R.q0) =
      some 0x0011223344556677 ∧
    (after (stepWith identCipher (State.reset.withFetchWord 8 0b01000))).map (fun t => t.regs.sub) = some .wait ∧
    after (stepWith identCipher (State.reset.withFetchWord 0 0)) = some State.reset := by decide

/-! Single steps. -/

-- V70: `RD A` in DONE; R73: 0 in BUSY
theorem test_rd_a : (after (exec (.rd .a) wrapped)).map State.rdata = some 0xA6A6A6A6A6A6A6AA ∧
    (after (exec (.rd .a) (wrapping .wait 2 0 0))).map State.rdata = some 0 := by decide
-- R26: K reads 0
theorem test_rd_k : (after (exec (.rd (.k 0)) (wrapping .wait 2 0 0))).map State.rdata = some 0 := by decide
-- V31: a length saturates at 255 and is never taken modulo 256
theorem test_wr_saturates : (after (exec (.wr .klen 0x110) State.reset)).map (fun t => t.regs.KLEN) = some 255 ∧
    (after (exec (.wr .dlen 255) State.reset)).map (fun t => t.regs.DLEN) = some 255 := by decide
-- V32: a data write in DONE, and an illegal command word in IDLE, only set `rej`
theorem test_wr_refused : statusAfter (exec (.wr (.r 3) 1) wrapped) = some 0x1892 ∧
    statusAfter (exec (.wr .cmd 4) State.reset) = some 0x80 := by decide
-- R111's example
theorem test_nop : statusAfter (exec .nop State.reset) = some 0 := by decide
-- V32: NOP in BUSY
theorem test_nop_busy : statusAfter (exec .nop (wrapping .issue 2 0 0)) = some 0x81 := by decide
-- R119's example
theorem test_wrap : statusAfter (exec .wrap (idle 16 16)) = some 1 := by decide
-- V30: `WRAP` with KLEN 15 and DLEN 16 (row 2), and with 16 and 24 (row 5)
theorem test_wrap_refused : statusAfter (exec .wrap (idle 15 16)) = some 0x30 ∧
    statusAfter (exec .wrap (idle 16 24)) = some 0x40 := by decide
-- R120 (c): the counters start at (5, n - 1)
theorem test_unwrap : (after (exec .unwrap (idle 24 32))).map (fun t => (t.regs.n, t.regs.j, t.regs.i)) =
    some (3, 5, 2) := by decide
-- R120's example
theorem test_unwrap_refused : statusAfter (exec .unwrap (idle 16 23)) = some 0x50 := by decide
-- R122's example
theorem test_clear : (after (exec .clear wrapped)).map State.regs = some Regs.reset := by decide
-- V32: CLEAR in BUSY
theorem test_clear_busy : statusAfter (exec .clear (wrapping .issue 2 0 0)) = some 0x81 := by decide
-- R157's example, V61
theorem test_wIssue : (after (exec .wIssue (wrapping .issue 2 0 0))).map (fun t => cipherRequest t.regs) =
    some (some { dir := .enc, ksz := 0
                 key := 0x000102030405060708090A0B0C0D0E0F00000000000000000000000000000000
                 block := 0xA6A6A6A6A6A6A6A60011223344556677 }) := by decide
-- R158's example, V2 step 1
theorem test_wRetire :
    after (exec .wRetire (answered (wrapping .wait 2 0 0) (.ok 0xF4740052E82A225174CE86FBD7B805E7))) =
      some { wrapping .issue 2 0 1 with regs := { (wrapping .issue 2 0 1).regs with
        A := 0xF4740052E82A2250, R := ⟨0x74CE86FBD7B805E7, 0x8899AABBCCDDEEFF, 3, 4⟩ } } := by decide
-- R198's example
theorem test_wRetire_err :
    statusAfter (exec .wRetire (answered (wrapping .wait 2 0 0) (.err 0xBEEF))) = some 0xBEEF0062 := by decide
-- V52
theorem test_wFin : statusAfter (exec .wFin (wrapping .fin 2 5 1)) = some 0x1812 ∧
    statusAfter (exec .wFin (wrapping .fin 4 5 3)) = some 0x2812 := by decide
-- R172's example, V61
theorem test_uIssue :
    (after (exec .uIssue (unwrapping .issue 2 5 1))).map (fun t => cipherRequest t.regs) =
      some (some { dir := .dec, ksz := 0
                   key := 0x000102030405060708090A0B0C0D0E0F00000000000000000000000000000000
                   block := 0x1FA68B0A8112B44B9D3E862371D2CFE5 }) := by decide
-- R173's example, V3 step 1
theorem test_uRetire :
    after (exec .uRetire (answered (unwrapping .wait 2 5 1) (.ok 0x93B71967EED41FF74FD3D2B7D74FBB42))) =
      some { unwrapping .issue 2 5 0 with regs := { (unwrapping .issue 2 5 0).regs with
        A := 0x93B71967EED41FF7, R := ⟨0xAEF34BD8FB5A7B82, 0x4FD3D2B7D74FBB42, 3, 4⟩ } } := by decide
-- R142: from (j, i) = (5, 0) to (4, n - 1)
theorem test_uRetire_next_round :
    (after (exec .uRetire (answered (unwrapping .wait 4 5 0) (.ok 0)))).map (fun t => (t.regs.j, t.regs.i)) =
      some (4, 3) := by decide
-- R174's example
theorem test_uFin : statusAfter (exec .uFin (withA (unwrapping .fin 2 0 0) Config.icv)) = some 0x1016 := by decide
-- V12's end: the accumulator differs, everything is zeroized
theorem test_uFin_integrity :
    (after (exec .uFin (withA (unwrapping .fin 2 0 0) 0xECC2839D214839B6))).map
      (fun t => (statusView t.regs, t.regs.A, t.regs.R)) = some (0x26, 0, ⟨0, 0, 0, 0⟩) := by decide
-- V62: Ok and Err, and a stray response
theorem test_cRespond : (after (exec (.cRespond 0 9 5) (wrapping .wait 2 0 0))).map State.crsp = some (some (.ok 5)) ∧
    (after (exec (.cRespond 1 0xBEEF 5) (wrapping .wait 2 0 0))).map State.crsp = some (some (.err 0xBEEF)) ∧
    after (exec (.cRespond 0 0 5) wrapped) = some wrapped := by decide
-- R241: reset with a request outstanding
theorem test_reset : after (exec .reset (answered (wrapping .wait 2 0 0) (.ok 5))) = some State.reset := by decide
-- V60
theorem test_keyBus :
    keyBus ⟨0x1111111111111111, 0x2222222222222222, 0x3333333333333333, 0x4444444444444444⟩ 24 =
      0x1111111111111111222222222222222233333333333333330000000000000000 := by decide

/-! Host scripts. -/

-- R101: POLL reads on while BUSY is read and stops at the first other value (V52's STATUS), with one gap left
theorem test_poll : (poll identCipher (wrapping .fin 2 5 1) [[], [.engine], []]).map
    (fun r => (r.1, r.2.gaps.length)) = some (0x1812, 1) := by decide
-- R101: POLL does not end while BUSY is all it reads
theorem test_poll_busy : poll identCipher (wrapping .wait 2 0 0) [[], [.engine], []] = none := by decide
-- R101: READWRAPPED is A and R[0..n-1], first byte of each first
theorem test_readWrapped : (readWrapped identCipher 24 { state := wrapped, gaps := [[], [], []] }).map Prod.fst =
    some [0xA6, 0xA6, 0xA6, 0xA6, 0xA6, 0xA6, 0xA6, 0xAA, 0, 0, 0, 0, 0, 0, 0, 1, 0, 0, 0, 0, 0, 0, 0, 2] := by decide
-- R104 from its POLL on: the bytes of a successful wrap; R105: the "no value" outcome of V12's STATUS
theorem test_call_results :
    (wrapKeyResult identCipher 0x1812 { state := wrapped, gaps := [[], [], []] }).map Prod.fst =
      some (.bytes [0xA6, 0xA6, 0xA6, 0xA6, 0xA6, 0xA6, 0xA6, 0xAA, 0, 0, 0, 0, 0, 0, 0, 1, 0, 0, 0, 0, 0, 0, 0, 2]) ∧
    (unwrapKeyResult identCipher 0x26 { state := wrapped, gaps := [] }).map Prod.fst = some .noValue ∧
    (wrapKeyResult identCipher 0xBEEF0062 { state := wrapped, gaps := [] }).map Prod.fst =
      some (.primitiveError 0xBEEF) := by decide
-- R104, spec/95_test_vectors.md section 1: a KEK of 15 bytes fails with the KEK-length error, and CLEAR has been done
theorem test_wrapKey_kek15 :
    (wrapKey identCipher (List.replicate 15 1) (List.replicate 8 2)
      { state := State.reset, gaps := List.replicate 8 [] }).map (fun r => (r.1, r.2.state.regs)) =
      some (.invalidKekLength, Regs.reset) := by decide

/-! Witnesses: for each statement of Certificates/Slice0/Obligations.lean with hypotheses, concrete values that meet them. -/

theorem witness_EncodeThenDecode :
    (Instr.wr .cmd 0xFFFFFFFFFFFFFFFF).wellFormed = true ∧ (Instr.wr .cmd 4).wellFormed = true ∧
    Instr.uFin.wellFormed = true := by decide

theorem witness_HostxWordsAllDecode :
    (0x1FFFFFFFFFFFFFFFFF#69).extractLsb' 68 1 = 1#1 ∧ (0x0FFFFFFFFFFFFFFFFF#69).extractLsb' 68 1 = 0#1 := by decide

theorem witness_EngineTurnSelectsByControlState :
    nextTurn State.reset = .engine ∧ State.reset.regs.phase ≠ .busy ∧
    nextTurn (unwrapping .fin 4 0 0) = .engine ∧ (unwrapping .fin 4 0 0).regs.phase = .busy := by decide

theorem witness_StepRunsTheDecodedOperation :
    fetchWord Config.cipher (State.reset.withTurns [wrapLine]) = some (.hostx (hostxWord 1 .cmd 1)) ∧
    decode (.hostx (hostxWord 1 .cmd 1)) = .ok .wrap ∧
    fetchWord Config.cipher (wrapping .issue 2 0 0) = some (.ustate 0b01000#5) ∧
    decode (.ustate 0b01000#5) = .ok .wIssue := ⟨rfl, by decide, rfl, by decide⟩

/-- The four cases: the engine in IDLE, the engine waiting, the adapter without a request, the adapter that has answered. -/
theorem witness_TurnWithoutAStepIsIdle :
    (nextTurn State.reset = .engine ∧ State.reset.regs.phase ≠ .busy) ∧
    (nextTurn (wrapping .wait 2 0 0) = .engine ∧ (wrapping .wait 2 0 0).regs.sub = .wait ∧
      (wrapping .wait 2 0 0).crsp = none) ∧
    (nextTurn (State.reset.withTurns [.answer]) = .answer ∧
      outstanding (State.reset.withTurns [.answer]).regs = false) ∧
    (nextTurn ((answered (wrapping .wait 2 0 0) (.ok 1)).withTurns [.answer]) = .answer ∧
      ((answered (wrapping .wait 2 0 0) (.ok 1)).withTurns [.answer]).crsp ≠ none) := by decide

theorem witness_ClearReturnsToReset :
    State.reset.regs.phase ≠ .busy ∧ wrapped.regs.phase ≠ .busy ∧ (wrapping .wait 2 0 0).regs.phase = .busy := by decide

theorem witness_IdleWriteStoresTheSlot : State.reset.regs.phase = .idle := by decide

theorem witness_WriteThenReadInIdle :
    State.reset.regs.phase = .idle ∧ Slot.r 3 ≠ .cmd ∧ Slot.r 3 ≠ .status ∧ Slot.r 3 ≠ .s13 ∧ Slot.r 3 ≠ .s14 ∧
    Slot.r 3 ≠ .s15 ∧ Slot.klen ≠ .cmd ∧ Slot.klen ≠ .status ∧ Slot.klen ≠ .s13 ∧ Slot.klen ≠ .s14 ∧
    Slot.klen ≠ .s15 ∧ Slot.a ≠ Slot.r 3 := by decide

theorem witness_BusyRefusesHostWrites : (wrapping .wait 2 0 0).regs.phase = .busy := by decide

theorem witness_DoneRefusesAllButNopAndClear :
    wrapped.regs.phase = .done ∧ (Instr.wr .cmd 4).wellFormed = true ∧ (Instr.wr (.k 3) 1).wellFormed = true := by
  decide

theorem witness_ReservedSlotsRefuseWrites : Slot.s15 = .s13 ∨ Slot.s15 = .s14 ∨ Slot.s15 = .s15 := by decide

theorem witness_IllegalCommandWordsAreRefused :
    ¬ (4#64).toNat < 4 ∧ (3#64).toNat < 4 ∧ ¬ (0xFFFFFFFFFFFFFFFF#64).toNat < 4 := by decide

theorem witness_NopChangesNothing :
    wrapped.regs.phase ≠ .busy ∧ (wrapping .issue 2 0 0).regs.phase = .busy := by decide

theorem witness_RejIsSetByHostWritesOnly :
    (after (stepWith identCipher (wrapped.withTurns [wrLine .status 0]))).map (fun t => t.regs.rej) = some true ∧
    wrapped.regs.rej = false ∧
    (after (stepWith identCipher { wrapped with regs := { wrapped.regs with rej := true }, turns := [clearLine] })).map
      (fun t => t.regs.rej) = some false ∧
    (after (stepWith identCipher { wrapped with regs := { wrapped.regs with rej := true }, turns := [.rst] })).map
      (fun t => t.regs.rej) = some false := by decide

theorem witness_AcceptedWrapStart :
    (idle 16 16).regs.phase = .idle ∧ (idle 16 16).regs.KLEN = 16 ∧ (idle 16 16).regs.DLEN = (idle 16 16).regs.KLEN ∧
    (idle 32 32).regs.phase = .idle ∧ (idle 32 32).regs.KLEN = 32 ∧ (idle 32 32).regs.DLEN = (idle 32 32).regs.KLEN := by
  decide

theorem witness_AcceptedUnwrapStart :
    (idle 16 24).regs.phase = .idle ∧ (idle 16 24).regs.KLEN = 16 ∧
    (idle 16 24).regs.DLEN.toNat = (idle 16 24).regs.KLEN.toNat + 8 ∧
    (idle 32 40).regs.phase = .idle ∧ (idle 32 40).regs.KLEN = 32 ∧
    (idle 32 40).regs.DLEN.toNat = (idle 32 40).regs.KLEN.toNat + 8 := by decide

/-- One state for each clause: KLEN 15 and 33; 16 with DLEN 15, 17 and 23; 32 with DLEN 39 and 41. -/
theorem witness_IllegalLengthsRefuseStart :
    (idle 15 15).regs.phase = .idle ∧ (∀ k ∈ [15, 33], (BitVec.ofNat 8 k).toNat ≠ 16 ∧ k ≠ 24 ∧ k ≠ 32) ∧
    (idle 16 15).regs.DLEN.toNat ≠ 16 ∧ (idle 16 17).regs.DLEN.toNat ≠ 16 ∧
    (idle 16 23).regs.DLEN.toNat ≠ 16 + 8 ∧ (idle 32 39).regs.DLEN.toNat ≠ 32 + 8 ∧
    (idle 32 41).regs.DLEN.toNat ≠ 32 + 8 := by decide

theorem witness_WrapIssueRaisesItsRequest :
    (wrapping .issue 2 0 0).regs.phase = .busy ∧ (wrapping .issue 2 0 0).regs.sub = .issue ∧
    (wrapping .issue 2 0 0).regs.mode = .wrap := by decide

theorem witness_UnwrapIssueRaisesItsRequest :
    (unwrapping .issue 2 5 1).regs.phase = .busy ∧ (unwrapping .issue 2 5 1).regs.sub = .issue ∧
    (unwrapping .issue 2 5 1).regs.mode = .unwrap := by decide

/-- The counters meet the sequencing invariants in the states the clauses are witnessed by. -/
theorem witness_seqInv_wrapping_fin : (wrapping .fin 4 5 3).regs.seqInv :=
  ⟨by decide, by decide, by decide, by decide, by decide⟩

theorem witness_seqInv_wrapping_first : (wrapping .wait 2 0 0).regs.seqInv :=
  ⟨by decide, by decide, by decide, by decide, by decide⟩

theorem witness_seqInv_wrapping_last : (wrapping .wait 4 5 3).regs.seqInv :=
  ⟨by decide, by decide, by decide, by decide, by decide⟩

theorem witness_seqInv_unwrapping_first : (unwrapping .wait 2 5 1).regs.seqInv :=
  ⟨by decide, by decide, by decide, by decide, by decide⟩

theorem witness_seqInv_unwrapping_last : (unwrapping .wait 4 0 0).regs.seqInv :=
  ⟨by decide, by decide, by decide, by decide, by decide⟩

/-- The three cases of `NextW`: (0, 0), (4, n - 1) and (5, n - 1). -/
theorem witness_WrapRetireStoresAndAdvances :
    let s0 := answered (wrapping .wait 2 0 0) (.ok 7)
    let s1 := answered (wrapping .wait 2 4 1) (.ok 7)
    let s2 := answered (wrapping .wait 4 5 3) (.ok 7)
    s0.regs.phase = .busy ∧ s0.regs.sub = .wait ∧ s0.regs.mode = .wrap ∧ s0.crsp = some (.ok 7) ∧
    s0.regs.i.toNat < s0.regs.n.toNat - 1 ∧
    s1.regs.phase = .busy ∧ s1.regs.sub = .wait ∧ s1.regs.mode = .wrap ∧ s1.crsp = some (.ok 7) ∧
    ¬ s1.regs.i.toNat < s1.regs.n.toNat - 1 ∧ s1.regs.j.toNat < 5 ∧
    s2.regs.phase = .busy ∧ s2.regs.sub = .wait ∧ s2.regs.mode = .wrap ∧ s2.crsp = some (.ok 7) ∧
    ¬ s2.regs.i.toNat < s2.regs.n.toNat - 1 ∧ ¬ s2.regs.j.toNat < 5 := by decide

/-- The three cases of `NextU`: (5, n - 1), (1, 0) and (0, 0). -/
theorem witness_UnwrapRetireStoresAndAdvances :
    let s0 := answered (unwrapping .wait 2 5 1) (.ok 7)
    let s1 := answered (unwrapping .wait 2 1 0) (.ok 7)
    let s2 := answered (unwrapping .wait 4 0 0) (.ok 7)
    s0.regs.phase = .busy ∧ s0.regs.sub = .wait ∧ s0.regs.mode = .unwrap ∧ s0.crsp = some (.ok 7) ∧
    0 < s0.regs.i.toNat ∧
    s1.regs.phase = .busy ∧ s1.regs.sub = .wait ∧ s1.regs.mode = .unwrap ∧ s1.crsp = some (.ok 7) ∧
    ¬ 0 < s1.regs.i.toNat ∧ 0 < s1.regs.j.toNat ∧
    s2.regs.phase = .busy ∧ s2.regs.sub = .wait ∧ s2.regs.mode = .unwrap ∧ s2.crsp = some (.ok 7) ∧
    ¬ 0 < s2.regs.i.toNat ∧ ¬ 0 < s2.regs.j.toNat := by decide

theorem witness_PrimitiveFailureEndsTheOperation :
    let s := answered (wrapping .wait 2 0 0) (.err 0xBEEF)
    let u := answered (unwrapping .wait 2 5 1) (.err 0)
    s.regs.phase = .busy ∧ s.regs.sub = .wait ∧ s.crsp = some (.err 0xBEEF) ∧ s.regs.mode = .wrap ∧
    u.regs.phase = .busy ∧ u.regs.sub = .wait ∧ u.crsp = some (.err 0) ∧ u.regs.mode = .unwrap := by decide

/-- A silent adapter, with a refused write, a read and engine turns to come. -/
theorem witness_SilentAdapterHangsTheEngine :
    let s := (wrapping .wait 2 0 0).withTurns [wrLine .a 5, .engine, rdLine .a, clearLine]
    s.regs.phase = .busy ∧ s.regs.sub = .wait ∧ s.crsp = none ∧ (∀ x ∈ s.turns, isSilent x = true) ∧
    (wrapping .wait 2 0 0).turns = [] := by decide

theorem witness_WrapFinishSucceeds :
    (wrapping .fin 4 5 3).regs.phase = .busy ∧ (wrapping .fin 4 5 3).regs.sub = .fin ∧
    (wrapping .fin 4 5 3).regs.mode = .wrap ∧ (wrapping .fin 4 5 3).regs.seqInv :=
  ⟨by decide, by decide, by decide, witness_seqInv_wrapping_fin⟩

/-- One accumulator equal to the ICV and one that differs from it in one bit. -/
theorem witness_UnwrapFinishChecksTheIcv :
    let s := withA (unwrapping .fin 2 0 0) 0xA6A6A6A6A6A6A6A6
    let u := withA (unwrapping .fin 2 0 0) 0xA6A6A6A6A6A6A6A7
    s.regs.phase = .busy ∧ s.regs.sub = .fin ∧ s.regs.mode = .unwrap ∧ s.regs.A = 0xA6A6A6A6A6A6A6A6#64 ∧
    u.regs.phase = .busy ∧ u.regs.sub = .fin ∧ u.regs.mode = .unwrap ∧ u.regs.A ≠ 0xA6A6A6A6A6A6A6A6#64 := by decide

theorem witness_ResponseIsTakenForTheRequest :
    (wrapping .wait 2 0 0).regs.phase = .busy ∧ (wrapping .wait 2 0 0).regs.sub = .wait ∧
    (wrapping .wait 2 0 0).crsp = none := by decide

theorem witness_StrayResponseIsIgnored :
    State.reset.regs.phase ≠ .busy ∧ (wrapping .issue 2 0 0).regs.sub ≠ .wait ∧
    (answered (wrapping .wait 2 0 0) (.ok 1)).crsp ≠ none := by decide

theorem witness_UnselectedMicroOpsDoNothing :
    ¬ (State.reset.regs.phase = .busy ∧ State.reset.regs.sub = .issue ∧ State.reset.regs.mode = .wrap) ∧
    ¬ (State.reset.regs.phase = .busy ∧ State.reset.regs.sub = .issue ∧ State.reset.regs.mode = .unwrap) ∧
    ¬ ((wrapping .wait 2 0 0).regs.phase = .busy ∧ (wrapping .wait 2 0 0).regs.sub = .wait ∧
      (wrapping .wait 2 0 0).regs.mode = .wrap ∧ (wrapping .wait 2 0 0).crsp ≠ none) ∧
    ¬ ((unwrapping .wait 2 5 1).regs.phase = .busy ∧ (unwrapping .wait 2 5 1).regs.sub = .wait ∧
      (unwrapping .wait 2 5 1).regs.mode = .unwrap ∧ (unwrapping .wait 2 5 1).crsp ≠ none) ∧
    ¬ ((unwrapping .fin 2 0 0).regs.phase = .busy ∧ (unwrapping .fin 2 0 0).regs.sub = .fin ∧
      (unwrapping .fin 2 0 0).regs.mode = .wrap) ∧
    ¬ (wrapped.regs.phase = .busy ∧ wrapped.regs.sub = .fin ∧ wrapped.regs.mode = .unwrap) := by decide

theorem witness_AdapterAnswersAsTheCipher :
    let s := (wrapping .wait 2 0 0).withTurns [.answer]
    nextTurn s = .answer ∧ s.regs.phase = .busy ∧ s.regs.sub = .wait ∧ s.crsp = none := by decide

theorem witness_RequestFieldsFollowTheState :
    (wrapping .wait 2 0 0).regs.mode = .wrap ∧ (unwrapping .wait 2 5 1).regs.mode = .unwrap := by decide

/-- KLEN = 16: `K[2]` and `K[3]` differ, `K[0]` and `K[1]` do not. -/
theorem witness_KeyBeyondItsLengthStaysInside :
    let b := (wrapping .wait 2 0 0).regs
    let k : Quad := ⟨0x0001020304050607, 0x08090A0B0C0D0E0F, 0xFF, 0xEE⟩
    k ≠ b.K ∧ ∀ q : BitVec 2, q.toNat < b.KLEN.toNat / 8 → bankGet k q = bankGet b.K q := by decide

/-- `t = 1` with `n = 2`, and `t = 24` with `n = 4`. -/
theorem witness_StepCounterStaysInRange :
    ((wrapping .wait 2 0 0).regs.seqInv ∧ (wrapping .wait 2 0 0).regs.phase = .busy) ∧
    (wrapping .wait 4 5 3).regs.seqInv ∧ (wrapping .wait 4 5 3).regs.phase = .busy ∧
    stepCounter (wrapping .wait 4 5 3).regs.n.toNat (wrapping .wait 4 5 3).regs.j.toNat
      (wrapping .wait 4 5 3).regs.i.toNat = 24 :=
  ⟨⟨witness_seqInv_wrapping_first, by decide⟩, witness_seqInv_wrapping_last, by decide, by decide⟩

/-- Each direction at its first step and at its last: `t = 1`, `t = 24`; `t = 12`, `t = 1`. -/
theorem witness_CounterMovesByOne :
    let t (s : State) : Nat := stepCounter s.regs.n.toNat s.regs.j.toNat s.regs.i.toNat
    ((wrapping .wait 2 0 0).regs.seqInv ∧ t (wrapping .wait 2 0 0) < 6 * 2) ∧
    ((wrapping .wait 4 5 3).regs.seqInv ∧ t (wrapping .wait 4 5 3) = 6 * 4) ∧
    ((unwrapping .wait 2 5 1).regs.seqInv ∧ 1 < t (unwrapping .wait 2 5 1)) ∧
    ((unwrapping .wait 4 0 0).regs.seqInv ∧ t (unwrapping .wait 4 0 0) = 1) :=
  ⟨⟨witness_seqInv_wrapping_first, by decide⟩, ⟨witness_seqInv_wrapping_last, by decide⟩,
    ⟨witness_seqInv_unwrapping_first, by decide⟩, ⟨witness_seqInv_unwrapping_last, by decide⟩⟩

theorem witness_StepKeepsSequencing :
    (wrapping .fin 4 5 3).regs.seqInv ∧ ∃ t, step (wrapping .fin 4 5 3) = .next t ∧ t.regs.phase = .done :=
  ⟨witness_seqInv_wrapping_fin, _, rfl, rfl⟩

theorem witness_StepKeepsStatus :
    (wrapping .fin 4 5 3).regs.seqInv ∧ (wrapping .fin 4 5 3).regs.statusInv ∧
      ∃ t, step (wrapping .fin 4 5 3) = .next t ∧ t.regs.rlen = 40 :=
  ⟨witness_seqInv_wrapping_fin, by decide, _, rfl, by decide⟩

theorem witness_StepKeepsTheResponsePort :
    (answered (wrapping .wait 2 0 0) (.ok 1)).portInv ∧
      ∃ t, step (answered (wrapping .wait 2 0 0) (.ok 1)) = .next t ∧ t.crsp = none :=
  ⟨by decide, _, rfl, rfl⟩

/-- One step for each way the phase moves. -/
theorem witness_PhaseMovesOnlyAsListed :
    let phaseAfter (s : State) : Option Phase := (after (stepWith identCipher s)).map fun t => t.regs.phase
    phaseAfter (wrapped.withTurns [.rst]) = some .idle ∧
    phaseAfter ((idle 16 16).withTurns [wrapLine]) = some .busy ∧
    phaseAfter ((idle 16 24).withTurns [unwrapLine]) = some .busy ∧
    phaseAfter (wrapping .fin 2 5 1) = some .done ∧
    phaseAfter (answered (wrapping .wait 2 0 0) (.err 1)) = some .done ∧
    phaseAfter (wrapped.withTurns [clearLine]) = some .idle := by decide

/-- An engine step, a CLEAR in DONE and a reset in BUSY. -/
theorem witness_LatchedOperandsHoldOutsideIdle :
    let s := wrapping .fin 2 5 1
    let clear := wrapped.withTurns [clearLine]
    let rst := s.withTurns [.rst]
    s.regs.phase ≠ .idle ∧ (after (stepWith identCipher s)).map (fun t => t.regs.KLEN) = some 16 ∧
    clear.regs.phase = .done ∧ nextTurn clear = .host 0x100000000000000003#69 ∧
    (after (stepWith identCipher clear)).map State.regs = some Regs.reset ∧
    rst.regs.phase ≠ .idle ∧ nextTurn rst = .rst ∧
    (after (stepWith identCipher rst)).map State.regs = some Regs.reset := by decide

/-- `n = 2`: a step that writes `R[0]`; the unused `R[2]` and `R[3]` hold 3 and 4. -/
theorem witness_UnusedElementsKeepTheirValue :
    (wrapping .wait 2 0 0).regs.seqInv ∧ (wrapping .wait 2 0 0).regs.phase = .busy ∧
      ∃ t, stepWith identCipher (answered (wrapping .wait 2 0 0) (.ok 7)) = .next t ∧ t.regs.R.q0 = 7 :=
  ⟨witness_seqInv_wrapping_first, by decide, _, rfl, by decide⟩

theorem witness_RequestIsConstantWhileOutstanding :
    let s := (wrapping .wait 2 0 0).withTurns [wrLine .a 5]
    outstanding s.regs = true ∧
      (after (stepWith identCipher s)).map (fun t => outstanding t.regs) = some true := by decide

theorem witness_BusyHidesTheWork : (wrapping .wait 2 0 0).regs.phase = .busy := by decide

theorem witness_RejInfluencesNothingElse :
    ∃ t, stepWith identCipher (wrapping .fin 2 5 1) = .next t := ⟨_, rfl⟩

theorem witness_WrapOperationComputesWrap :
    ((4 = 2 ∨ 4 = 3 ∨ 4 = 4) ∧ (idle 32 32).regs.phase = .idle ∧ (idle 32 32).regs.KLEN.toNat = 8 * 4 ∧
      (idle 32 32).regs.DLEN.toNat = 8 * 4 ∧ (idle 32 32).crsp = none) ∧
    (idle 16 16).regs.KLEN.toNat = 8 * 2 ∧ (idle 16 16).regs.DLEN.toNat = 8 * 2 := by decide

theorem witness_UnwrapOperationComputesUnwrap :
    ((4 = 2 ∨ 4 = 3 ∨ 4 = 4) ∧ (idle 32 40).regs.phase = .idle ∧ (idle 32 40).regs.KLEN.toNat = 8 * 4 ∧
      (idle 32 40).regs.DLEN.toNat = 8 * 4 + 8 ∧ (idle 32 40).crsp = none) ∧
    (idle 16 24).regs.KLEN.toNat = 8 * 2 ∧ (idle 16 24).regs.DLEN.toNat = 8 * 2 + 8 := by decide

/-- A cipher that is not the identity and has an inverse: complement every bit. -/
theorem witness_UnwrapUndoesWrap :
    ∃ enc dec : Block128 → Block128, (∀ x, dec (enc x) = x) ∧ enc 0 ≠ 0 :=
  ⟨fun x => ~~~x, fun x => ~~~x, fun x => BitVec.not_not, by decide⟩

/-- Two interleavings of an operation's last step, one with a refused host write in between. -/
theorem witness_ResultIsIndependentOfInterleaving :
    let s := wrapping .fin 2 5 1
    let ts := [Turn.engine]
    let us := [wrLine .a 5, Turn.answer, Turn.engine, rdLine .a]
    s.regs.phase = .busy ∧ (∀ x ∈ ts, isQuiet x = true) ∧ (∀ x ∈ us, isQuiet x = true) ∧
    ∃ t u : State, (coreWith identCipher).run ts.length (s.withTurns ts) = .next t ∧ t.regs.phase = .done ∧
      (coreWith identCipher).run us.length (s.withTurns us) = .next u ∧ u.regs.phase = .done ∧
      t.regs.rej = false ∧ u.regs.rej = true :=
  ⟨by decide, by decide, by decide, _, _, rfl, rfl, rfl, rfl, rfl, rfl⟩

/-- A fair schedule of `18n + 1` rounds, the adapter first in each and a host write between. -/
theorem witness_FairOperationTerminates :
    (wrapping .wait 4 5 3).regs.seqInv ∧ (wrapping .wait 4 5 3).regs.phase = .busy ∧
    ∃ rounds : List (List Turn), (∀ r ∈ rounds, fairRound r) ∧
      18 * (wrapping .wait 4 5 3).regs.n.toNat + 1 ≤ rounds.length :=
  ⟨witness_seqInv_wrapping_last, by decide, List.replicate 73 [.answer, wrLine .a 5, .engine],
    fun _ h => List.eq_of_mem_replicate h ▸ ⟨by decide, by decide, by decide⟩, by decide⟩

theorem witness_LoadKekPlacesTheKey :
    State.reset.regs.phase = .idle ∧ (List.replicate 16 (0xAB : Byte)).length = 16 ∧
    (List.replicate 32 (0xAB : Byte)).length = 32 := by decide

end Sys2Proof.Tests
end

section
/-! PROOFS. The statements of the scope (spec/00_scope.md): the step counter's range, the step as the decoded operation,
the adapter's answer; with what each of them needs of the decoder, the counters and the response port. -/

namespace Sys2Proof

/-- XOR with a number below `2^k` leaves the bits from `k` on (R63). -/
theorem extract_xor_of_toNat_lt {w k m : Nat} (x y : BitVec w) (h : y.toNat < 2 ^ k) :
    (x ^^^ y).extractLsb' k m = x.extractLsb' k m := by
  ext i hi
  have hbit : y.getLsbD (k + i) = false :=
    Nat.testBit_lt_two_pow (h.trans_le (Nat.pow_le_pow_right two_pos (Nat.le_add_right k i)))
  simp [BitVec.getElem_extractLsb', hbit]

/-! What the decoder answers. -/

/-- A CMD value names a command exactly when it is a legal command word (R87, R98). -/
theorem decodeCmd_cases (v : Semi) :
    (legalCommand v = true ∧ ∃ i, decodeCmd v = .ok i ∧ i.wellFormed = true) ∨
    (legalCommand v = false ∧ decodeCmd v = .error .illegalCommandWord) := by
  unfold decodeCmd
  cases h : legalCommand v with
  | false => exact .inr ⟨rfl, rfl⟩
  | true =>
    refine .inl ⟨rfl, ?_⟩
    simp only [if_true]
    split <;> exact ⟨_, rfl, rfl⟩

/-- A host transaction is a well-formed operation: its only `WR` to slot 0 carries an illegal command word (R96, R98). -/
theorem decodeHostx_wellFormed (w : BitVec 69) : (decodeHostx w).wellFormed = true := by
  unfold decodeHostx
  simp only
  split
  · rfl
  · generalize slotOfIdx (w.extractLsb' 64 4) = slot
    generalize w.extractLsb' 0 64 = v
    cases slot
    case cmd =>
      obtain ⟨-, i, hi, hwf⟩ | ⟨hv, he⟩ := decodeCmd_cases v
      · simpa only [hi] using hwf
      · simp [he, Instr.wellFormed, hv]
    all_goals rfl

/-- A control state names micro-operations only, which are well formed as they stand (R97). -/
theorem decodeUstate_wellFormed {w : BitVec 5} {i : Instr} (h : decodeUstate w = .ok i) : i.wellFormed = true := by
  unfold decodeUstate at h
  split at h <;> cases h <;> rfl

/-- Every operation that a word decodes to is well formed. -/
theorem decode_wellFormed {e : Encoded} {i : Instr} (h : decode e = .ok i) : i.wellFormed = true := by
  cases e with
  | hostx w =>
    cases h
    exact decodeHostx_wellFormed w
  | cmd v =>
    obtain ⟨-, k, hk, hwf⟩ | ⟨-, he⟩ := decodeCmd_cases v
    · cases hk.symm.trans h
      exact hwf
    · cases he.symm.trans h
  | ustate w => exact decodeUstate_wellFormed h
  | crsp w =>
    cases h
    rfl
  | rst =>
    cases h
    rfl

end Sys2Proof

namespace Sys2Proof.Machine

/-! The step counter. -/

/-- With the counters in range, `t` is at most `6n` (R137). -/
theorem stepCounter_le {n j i : Nat} (hn : 0 < n) (hj : j ≤ 5) (hi : i ≤ n - 1) : stepCounter n j i ≤ 6 * n := by
  have hnj : n * j ≤ n * 5 := Nat.mul_le_mul_left n hj
  unfold stepCounter
  omega

/-- `zext_64(t)` is exact for all values of the counter registers: they hold at most 7, 7 and 3 (R137, R138). -/
theorem counterWord_toNat (b : Regs) :
    (counterWord b).toNat = stepCounter b.n.toNat b.j.toNat b.i.toNat := by
  have hnj : b.n.toNat * b.j.toNat ≤ 7 * 7 :=
    Nat.mul_le_mul (Nat.le_of_lt_succ b.n.isLt) (Nat.le_of_lt_succ b.j.isLt)
  have hi := b.i.isLt
  refine Nat.mod_eq_of_lt ?_
  unfold stepCounter
  omega

/-- In BUSY `t` is at most `6n` and `n` at most 4 (R9, R37 (b)). -/
theorem stepCounter_le_of_busyRanges {b : Regs} (h : b.busyRanges) (hp : b.phase = .busy) :
    stepCounter b.n.toNat b.j.toNat b.i.toNat ≤ 6 * b.n.toNat ∧ 6 * b.n.toNat ≤ 24 := by
  obtain ⟨hn, hj, hi, -⟩ := h hp
  have hn' : 0 < b.n.toNat ∧ b.n.toNat ≤ 4 := by
    obtain hn | hn | hn := hn <;> simp [hn]
  exact ⟨stepCounter_le hn'.1 hj hi, Nat.mul_le_mul_left 6 hn'.2⟩

/-- Settles O40: the ranges of R37 (b) bound `t` by 24, so `zext_64(t)` has no bit above bit 4. -/
theorem stepCounterStaysInRange : Obligations.StepCounterStaysInRange := by
  intro b hinv hp
  obtain ⟨-, hranges, -⟩ := hinv
  obtain ⟨hle, h24⟩ := stepCounter_le_of_busyRanges hranges hp
  refine ⟨Nat.le_add_left 1 _, hle, h24, counterWord_toNat b, fun x => extract_xor_of_toNat_lt x _ ?_⟩
  rw [counterWord_toNat]
  omega

/-! The step as the decoded operation, and the adapter's answer. -/

/-- The step is the meaning of the operation that the word on the port decodes to (R96). -/
theorem stepWith_of_decode {c : Cipher} {s : State} {e : Encoded} {i : Instr} (hw : fetchWord c s = some e)
    (hd : decode e = .ok i) : stepWith c s = exec i s.advance := by
  simp [stepWith, fetch, hw, hd, Except.toOption]

/-- Settles O7: the decoder answers well-formed operations only, and the step runs the one it answers. -/
theorem stepRunsTheDecodedOperation : Obligations.StepRunsTheDecodedOperation :=
  fun _ _ _ hw hd => ⟨decode_wellFormed hd, stepWith_of_decode hw hd⟩

/-- The response to a request that is outstanding and unanswered is taken (R195). -/
theorem takeResponse_of_unanswered {s : State} (ho : outstanding s.regs = true) (hc : s.crsp = none) (r : Response) :
    s.takeResponse r = { s with crsp := some r } := by
  simp [State.takeResponse, ho, hc]

/-- Settles O37: the adapter's turn takes the cipher's answer to the request that the engine drives. -/
theorem adapterAnswersAsTheCipher : Obligations.AdapterAnswersAsTheCipher := by
  intro c s hturn hp hs hc
  have ho : outstanding s.regs = true := (outstanding_iff _).2 ⟨hp, hs⟩
  refine ⟨requestFields s.regs, if_pos ho, ?_⟩
  rw [stepWith_answer c s hturn, if_pos ho, takeResponse_of_unanswered (s := s.advance) ho hc]
  rfl

end Sys2Proof.Machine
end

section
/-! PROOFS. What one turn can do to the block's registers, as a relation with one constructor for each kind of update; the
statements about every step are case analyses of it. -/

namespace Sys2Proof

/-- A HOSTX word is the word of its three fields (R86). -/
theorem hostxWord_fields (w : BitVec 69) :
    hostxWord (w.extractLsb' 68 1) (slotOfIdx (w.extractLsb' 64 4)) (w.extractLsb' 0 64) = w := by
  rw [hostxWord, slotIdx_slotOfIdx, extract_append_extract (b := 4) w rfl, extract_append_extract (b := 64) w rfl]
  exact extract_all w

/-- A HOSTX word with the write bit set is the word of a write of its slot and data (R86). -/
theorem eq_hostxWord_of_write {w : BitVec 69} (hw : w.extractLsb' 68 1 = 1#1) :
    w = hostxWord 1 (slotOfIdx (w.extractLsb' 64 4)) (w.extractLsb' 0 64) :=
  (hostxWord_fields w).symm.trans (congrArg (hostxWord · _ _) hw)

end Sys2Proof

namespace Sys2Proof.Machine

/-! The host's command lines as HOSTX words (R101; spec/95_test_vectors.md section 7). -/

/-- The host's turn that commands `Start(m)` (R119, R120). -/
def startLine : Mode → Turn
  | .wrap => wrapLine
  | .unwrap => unwrapLine

theorem startLine_eq (m : Mode) :
    startLine m = .host 0x100000000000000001#69 ∨ startLine m = .host 0x100000000000000002#69 := by
  cases m with
  | wrap => exact .inl (by decide)
  | unwrap => exact .inr (by decide)

theorem clearLine_eq : clearLine = .host 0x100000000000000003#69 := by decide

/-- What a turn can do to the block's registers: nothing, or one of these updates, each where the rules allow it
(R71, R97, R118, R122, R240). -/
inductive BlockStep : Turn → Regs → Regs → Prop where
  /-- a read, NOP, a word on the response channel, an engine that waits or has no step -/
  | keep (x : Turn) (b : Regs) : BlockStep x b b
  /-- a refused host write (R216) -/
  | reject {w : BitVec 69} (b : Regs) (hw : w.extractLsb' 68 1 = 1#1) : BlockStep (.host w) b (reject b)
  /-- a host write of a data register (R71) -/
  | store {b : Regs} (slot : Slot) (v : Semi) (hp : b.phase = .idle) :
      BlockStep (wrLine slot v) b (storeSlot b slot v)
  /-- a START refused for a length (R117) -/
  | refuse {b : Regs} {o : OutcomeCode} (m : Mode)
      (ho : o = .invalidKekLen ∨ o = .invalidKeyLen ∨ o = .invalidWrappedLen) (hp : b.phase = .idle) :
      BlockStep (startLine m) b (refuseLength o b)
  /-- a START accepted (R118) -/
  | accept {b : Regs} (m : Mode) (hl : lengthError m b = none) (hp : b.phase = .idle) :
      BlockStep (startLine m) b (acceptStart m b)
  /-- CLEAR (R122) -/
  | clear {b : Regs} (hp : b.phase ≠ .busy) : BlockStep clearLine b Regs.reset
  /-- RESET (R240) -/
  | rst (b : Regs) : BlockStep .rst b Regs.reset
  /-- ISSUE, of wrap and of unwrap (R157, R172) -/
  | issue {b : Regs} (hp : b.phase = .busy) (hs : b.sub = .issue) : BlockStep .engine b (issue b)
  /-- a RETIRE that consumes `Err(code)` (R198) -/
  | fail {b : Regs} (code : BitVec 16) (hp : b.phase = .busy) (hs : b.sub = .wait) :
      BlockStep .engine b (raiseOutcome (.primitiveFailure code) b)
  /-- W.RETIRE of a block (R158) -/
  | retireWrap {b : Regs} (B : Block128) (hp : b.phase = .busy) (hs : b.sub = .wait) (hm : b.mode = .wrap) :
      BlockStep .engine b (retireWrap b (.ok B))
  /-- U.RETIRE of a block (R173) -/
  | retireUnwrap {b : Regs} (B : Block128) (hp : b.phase = .busy) (hs : b.sub = .wait) (hm : b.mode = .unwrap) :
      BlockStep .engine b (retireUnwrap b (.ok B))
  /-- W.FIN (R160) -/
  | finishWrap {b : Regs} (hp : b.phase = .busy) (hs : b.sub = .fin) (hm : b.mode = .wrap) :
      BlockStep .engine b (finishWrap b)
  /-- U.FIN (R174) -/
  | finishUnwrap {b : Regs} (hp : b.phase = .busy) (hs : b.sub = .fin) (hm : b.mode = .unwrap) :
      BlockStep .engine b (finishUnwrap b)

/-- A START in IDLE is refused for a length or accepted (R118). -/
theorem blockStep_start (m : Mode) {b : Regs} (hp : b.phase = .idle) : BlockStep (startLine m) b (start m b) := by
  obtain ⟨o, ho, h⟩ | ⟨hl, h⟩ := start_cases m b
  · rw [h]
    exact .refuse m ho hp
  · rw [h]
    exact .accept m hl hp

/-- A host write is one of the block's steps (R71). -/
theorem blockStep_hostWrite (slot : Slot) (v : Semi) (b : Regs) :
    BlockStep (wrLine slot v) b (hostWrite b slot v) := by
  obtain h | ⟨-, rfl, rfl, h⟩ | ⟨hp, rfl, rfl, h⟩ | ⟨hp, rfl, rfl, h⟩ | ⟨hp, rfl, rfl, h⟩ | ⟨hp, -, h⟩ :=
    hostWrite_cases b slot v
  all_goals rw [h]
  · exact .reject b (extract_hostx_we 1 slot v)
  · exact .keep _ b
  · exact blockStep_start .wrap hp
  · exact blockStep_start .unwrap hp
  · exact .clear hp
  · exact .store slot v hp

/-- Every step of the machine is one of the block's steps. -/
theorem blockStep_of_stepWith {c : Cipher} {s t : State} (h : stepWith c s = .next t) :
    BlockStep (nextTurn s) s.regs t.regs := by
  obtain rfl | ⟨w, slot, -, -, rfl⟩ | ⟨w, slot, v, hx, hw, rfl, rfl, rfl⟩ | ⟨hx, hp, hs, rfl⟩ |
    ⟨r, hx, hp, hs, -, hr⟩ | ⟨hx, hp, hs, hf⟩ | ⟨r, -, -, -, -, rfl⟩ | ⟨hx, rfl⟩ := stepWith_cases h
  · exact .keep _ _
  · exact .keep _ _
  · have hline : nextTurn s = wrLine (slotOfIdx (w.extractLsb' 64 4)) (w.extractLsb' 0 64) :=
      hx.trans (congrArg Turn.host (eq_hostxWord_of_write hw))
    rw [hline]
    exact blockStep_hostWrite _ _ s.regs
  · rw [hx]
    exact .issue hp hs
  · rw [hx]
    cases r with
    | ok B =>
      obtain ⟨hm, rfl⟩ | ⟨hm, rfl⟩ := hr
      · exact .retireWrap B hp hs hm
      · exact .retireUnwrap B hp hs hm
    | err code =>
      obtain ⟨-, rfl⟩ | ⟨-, rfl⟩ := hr
      all_goals exact .fail code hp hs
  · rw [hx]
    obtain ⟨hm, rfl⟩ | ⟨hm, rfl⟩ := hf
    · exact .finishWrap hp hs hm
    · exact .finishUnwrap hp hs hm
  · exact .keep _ _
  · rw [hx]
    exact .rst _

end Sys2Proof.Machine
end

section
/-! PROOFS. Every step keeps the invariants of R37 and what STATUS says of the data (spec/10_state.md). Each invariant has
one short form for each phase; each update is checked against the form of the phase it leads to. -/

namespace Sys2Proof

/-- A counter that has room goes up by one (R34, R35). -/
theorem toNat_add_one {w : Nat} {x : BitVec w} (h : x.toNat + 1 < 2 ^ w) : (x + 1).toNat = x.toNat + 1 := by
  have h1 : (1 : BitVec w).toNat = 1 := Nat.mod_eq_of_lt (show 1 < 2 ^ w by omega)
  rw [BitVec.toNat_add_of_lt (by omega), h1]

/-- A counter that is not zero goes down by one (R34, R35). -/
theorem toNat_sub_one {w : Nat} {x : BitVec w} (h : 0 < x.toNat) : (x - 1).toNat = x.toNat - 1 := by
  have hlt := x.isLt
  have h1 : (1 : BitVec w).toNat = 1 := Nat.mod_eq_of_lt (show 1 < 2 ^ w by omega)
  rw [BitVec.toNat_sub_of_le (BitVec.le_def.2 (by omega)), h1]

end Sys2Proof

namespace Sys2Proof.Machine

/-! The sequencing invariants, phase by phase (R37). -/

theorem seqInv_iff_of_idle {b : Regs} (hp : b.phase = .idle) :
    b.seqInv ↔ (b.sub = .issue ∧ b.j = 0 ∧ b.i = 0) ∧ b.rlen = 0 ∧
      (b.outcome = .none ∨ b.outcome = .invalidKekLen ∨ b.outcome = .invalidKeyLen ∨
        b.outcome = .invalidWrappedLen) := by
  simp [Regs.seqInv, Regs.countersRest, Regs.busyRanges, Regs.finCounters, Regs.idleNoResult, Regs.phaseOutcome, hp]

theorem seqInv_iff_of_busy {b : Regs} (hp : b.phase = .busy) :
    b.seqInv ↔ b.busyRanges ∧ b.finCounters ∧ b.outcome = .none := by
  simp [Regs.seqInv, Regs.countersRest, Regs.idleNoResult, Regs.phaseOutcome, hp]

theorem seqInv_iff_of_done {b : Regs} (hp : b.phase = .done) :
    b.seqInv ↔ (b.sub = .issue ∧ b.j = 0 ∧ b.i = 0) ∧
      (b.outcome = .ok ∨ b.outcome = .integrityFail ∨ b.outcome = .primitiveErr) := by
  simp [Regs.seqInv, Regs.countersRest, Regs.busyRanges, Regs.finCounters, Regs.idleNoResult, Regs.phaseOutcome, hp]

theorem seqInv_of_idle {b : Regs} (hp : b.phase = .idle) (hrest : b.sub = .issue ∧ b.j = 0 ∧ b.i = 0)
    (hrlen : b.rlen = 0) (ho : b.outcome = .none ∨ b.outcome = .invalidKekLen ∨ b.outcome = .invalidKeyLen ∨
      b.outcome = .invalidWrappedLen) : b.seqInv :=
  (seqInv_iff_of_idle hp).2 ⟨hrest, hrlen, ho⟩

theorem seqInv_of_busy {b : Regs} (hp : b.phase = .busy) (hr : b.busyRanges) (hf : b.finCounters)
    (ho : b.outcome = .none) : b.seqInv :=
  (seqInv_iff_of_busy hp).2 ⟨hr, hf, ho⟩

/-- Leaving BUSY meets the invariants with any outcome that DONE can have (R144). -/
theorem seqInv_leaveBusy {b : Regs} (ho : b.outcome = .ok ∨ b.outcome = .integrityFail ∨ b.outcome = .primitiveErr) :
    (leaveBusy b).seqInv :=
  (seqInv_iff_of_done rfl).2 ⟨⟨rfl, rfl, rfl⟩, ho⟩

theorem seqInv_reset : Regs.reset.seqInv := seqInv_of_idle rfl ⟨rfl, rfl, rfl⟩ rfl (.inl rfl)

/-- Outside BUSY the sequencing invariants do not speak of the registers the host loads. -/
theorem seqInv_storeSlot {b : Regs} (hp : b.phase = .idle) (hi : b.seqInv) (slot : Slot) (v : Semi) :
    (storeSlot b slot v).seqInv := by
  obtain ⟨a, r, k, kl, dl, h⟩ := storeSlot_frame b slot v
  rw [h]
  obtain ⟨hrest, hrlen, ho⟩ := (seqInv_iff_of_idle hp).1 hi
  exact seqInv_of_idle hp hrest hrlen ho

/-- The lengths an accepted START has found give `n` semiblocks (R94, R118). -/
theorem semiblockCount_of_accepted {m : Mode} {b : Regs} (hl : lengthError m b = none) :
    (semiblockCount m b.DLEN = 2 ∨ semiblockCount m b.DLEN = 3 ∨ semiblockCount m b.DLEN = 4) ∧
    b.KLEN.toNat = 8 * (semiblockCount m b.DLEN).toNat ∧
    (m = .wrap → b.DLEN.toNat = 8 * (semiblockCount m b.DLEN).toNat) ∧
    (m = .unwrap → b.DLEN.toNat = 8 * (semiblockCount m b.DLEN).toNat + 8) := by
  obtain ⟨hk, hwrap, hunwrap⟩ := lengthError_none hl
  cases m with
  | wrap => obtain hk | hk | hk := hk <;> simp [semiblockCount, hwrap rfl, hk]
  | unwrap => obtain hk | hk | hk := hk <;> simp [semiblockCount, hunwrap rfl, hk]

theorem seqInv_acceptStart {m : Mode} {b : Regs} (hl : lengthError m b = none) : (acceptStart m b).seqInv := by
  obtain ⟨hn, hk, hd⟩ := semiblockCount_of_accepted hl
  cases m with
  | wrap =>
    refine seqInv_of_busy rfl (fun _ => ⟨hn, ?_, ?_, hk, hd⟩) nofun rfl
    · simp
    · simp
  | unwrap =>
    refine seqInv_of_busy rfl (fun _ => ⟨hn, ?_, ?_, hk, hd⟩) nofun rfl
    · simp
    · obtain h | h | h := hn <;> simp [h]

/-- `NextW` keeps the counters in range and reaches FIN at `(5, n-1)` only (R141). -/
theorem seqInv_nextWrap {b : Regs} (hp : b.phase = .busy) (hm : b.mode = .wrap) (hi : b.seqInv) :
    (nextWrap b).seqInv := by
  obtain ⟨hr, -, ho⟩ := (seqInv_iff_of_busy hp).1 hi
  obtain ⟨hn, hj, hin, hlen⟩ := hr hp
  have hn4 : b.n.toNat ≤ 4 := by obtain h | h | h := hn <;> simp [h]
  obtain ⟨hlt, h⟩ | ⟨hge, hlt, h⟩ | ⟨hge, hge5, h⟩ := nextWrap_cases b
  all_goals rw [h]
  · refine seqInv_of_busy hp (fun _ => ⟨hn, hj, ?_, hlen⟩) nofun ho
    exact (toNat_add_one (by omega)).trans_le hlt
  · refine seqInv_of_busy hp (fun _ => ⟨hn, ?_, Nat.zero_le _, hlen⟩) nofun ho
    exact (toNat_add_one (by omega)).trans_le hlt
  · refine seqInv_of_busy hp (fun _ => ⟨hn, hj, hin, hlen⟩) (fun _ _ => ⟨fun _ => ⟨?_, ?_⟩, ?_⟩) ho
    · exact BitVec.eq_of_toNat_eq (le_antisymm hj (not_lt.1 hge5))
    · exact le_antisymm hin (not_lt.1 hge)
    · exact fun hu => nomatch hm.symm.trans hu

/-- `NextU` keeps the counters in range and reaches FIN at `(0, 0)` only (R142). -/
theorem seqInv_nextUnwrap {b : Regs} (hp : b.phase = .busy) (hm : b.mode = .unwrap) (hi : b.seqInv) :
    (nextUnwrap b).seqInv := by
  obtain ⟨hr, -, ho⟩ := (seqInv_iff_of_busy hp).1 hi
  obtain ⟨hn, hj, hin, hlen⟩ := hr hp
  obtain ⟨hlt, h⟩ | ⟨hge, hlt, h⟩ | ⟨hi0, hj0, h⟩ := nextUnwrap_cases b
  all_goals rw [h]
  · refine seqInv_of_busy hp (fun _ => ⟨hn, hj, ?_, hlen⟩) nofun ho
    exact ((toNat_sub_one hlt).trans_le (Nat.sub_le _ 1)).trans hin
  · refine seqInv_of_busy hp (fun _ => ⟨hn, ?_, Nat.mod_le _ _, hlen⟩) nofun ho
    exact ((toNat_sub_one hlt).trans_le (Nat.sub_le _ 1)).trans hj
  · refine seqInv_of_busy hp (fun _ => ⟨hn, hj, hin, hlen⟩) (fun _ _ => ⟨?_, fun _ => ⟨?_, ?_⟩⟩) ho
    · exact fun hw => nomatch hm.symm.trans hw
    · exact BitVec.eq_of_toNat_eq (Nat.eq_zero_of_not_pos hj0)
    · exact BitVec.eq_of_toNat_eq (Nat.eq_zero_of_not_pos hi0)

/-- Every turn keeps the sequencing invariants. -/
theorem BlockStep.keeps_seqInv {x : Turn} {b b' : Regs} (h : BlockStep x b b') (hi : b.seqInv) : b'.seqInv := by
  cases h with
  | keep => exact hi
  | reject => exact hi
  | store slot v hp => exact seqInv_storeSlot hp hi slot v
  | refuse _ ho hp =>
    obtain ⟨hrest, -, -⟩ := (seqInv_iff_of_idle hp).1 hi
    exact seqInv_of_idle hp hrest rfl (.inr ho)
  | accept _ hl => exact seqInv_acceptStart hl
  | clear => exact seqInv_reset
  | rst => exact seqInv_reset
  | issue hp =>
    obtain ⟨hr, -, ho⟩ := (seqInv_iff_of_busy hp).1 hi
    exact seqInv_of_busy hp hr nofun ho
  | fail => exact seqInv_leaveBusy (.inr (.inr rfl))
  | retireWrap B hp _ hm => exact seqInv_nextWrap hp hm hi
  | retireUnwrap B hp _ hm => exact seqInv_nextUnwrap hp hm hi
  | finishWrap => exact seqInv_leaveBusy (.inl rfl)
  | finishUnwrap =>
    obtain ⟨-, h⟩ | ⟨-, h⟩ := finishUnwrap_cases b
    all_goals rw [h]
    · exact seqInv_leaveBusy (.inl rfl)
    · exact seqInv_leaveBusy (.inr (.inl rfl))

/-- Settles O43, by the cases of `BlockStep`. -/
theorem stepKeepsSequencing : Obligations.StepKeepsSequencing :=
  fun _ _ hi h => (blockStep_of_stepWith h).keeps_seqInv hi

/-! What the status registers say of the data (R40, R41, R49, R221). -/

/-- Outside DONE and with no exceptional outcome of an operation, the status registers hold no result. -/
theorem statusInv_of_noResult {b : Regs} (hp : b.phase ≠ .done) (ho : b.outcome ≠ .integrityFail)
    (hperr : b.perr = 0) (hrlen : b.rlen = 0) : b.statusInv :=
  ⟨fun _ => hperr, fun _ => hrlen, fun h => absurd h hp, fun h => absurd h hp, fun h => absurd h hp,
    fun h => absurd h ho⟩

/-- In BUSY there is no error code and no result yet (R37 (e), R40, R41). -/
theorem noResult_of_busy {b : Regs} (hp : b.phase = .busy) (hi : b.seqInv) (hst : b.statusInv) :
    b.outcome = .none ∧ b.perr = 0 ∧ b.rlen = 0 := by
  obtain ⟨-, -, ho⟩ := (seqInv_iff_of_busy hp).1 hi
  obtain ⟨hperr, hrlen, -⟩ := hst
  exact ⟨ho, hperr (by simp [ho]), hrlen (by simp [ho])⟩

/-- In IDLE there is no error code and no result (R37 (d), (e), R41). -/
theorem noResult_of_idle {b : Regs} (hp : b.phase = .idle) (hi : b.seqInv) (hst : b.statusInv) :
    b.outcome ≠ .integrityFail ∧ b.perr = 0 ∧ b.rlen = 0 := by
  obtain ⟨-, hrlen, ho⟩ := (seqInv_iff_of_idle hp).1 hi
  obtain ⟨hperr, -⟩ := hst
  refine ⟨?_, hperr ?_, hrlen⟩ <;> obtain h | h | h | h := ho <;> simp [h]

/-- In BUSY the status registers need nothing more than no error code and no result. -/
theorem statusInv_of_busy {b : Regs} (hp : b.phase = .busy) (ho : b.outcome = .none) (hperr : b.perr = 0)
    (hrlen : b.rlen = 0) : b.statusInv :=
  statusInv_of_noResult (by simp [hp]) (by simp [ho]) hperr hrlen

/-- A failure of either kind leaves no data and no length (R176, R198, R221). -/
theorem statusInv_failed {b : Regs} (ho : b.outcome = .primitiveErr ∨
      b.outcome = .integrityFail ∧ b.perr = 0 ∧ b.mode = .unwrap) (hrlen : b.rlen = 0) :
    (leaveBusy (zeroizeData b)).statusInv := by
  obtain ho | ⟨ho, hperr, hm⟩ := ho <;> simp [Regs.statusInv, *]

theorem statusInv_reset : Regs.reset.statusInv := by simp [Regs.statusInv]

/-- A step of the counters leaves everything but `sub`, `j` and `i` (R141). -/
theorem nextWrap_frame (b : Regs) : ∃ u j i, nextWrap b = { b with sub := u, j := j, i := i } := by
  obtain ⟨-, h⟩ | ⟨-, -, h⟩ | ⟨-, -, h⟩ := nextWrap_cases b <;> exact ⟨_, _, _, h⟩

/-- A step of the counters leaves everything but `sub`, `j` and `i` (R142). -/
theorem nextUnwrap_frame (b : Regs) : ∃ u j i, nextUnwrap b = { b with sub := u, j := j, i := i } := by
  obtain ⟨-, h⟩ | ⟨-, -, h⟩ | ⟨-, -, h⟩ := nextUnwrap_cases b <;> exact ⟨_, _, _, h⟩

/-- A RETIRE of a block writes `A`, `R[i]` and the counters only (R158). -/
theorem retireWrap_ok_frame (b : Regs) (B : Block128) : ∃ u j i, retireWrap b (.ok B) = { b with
    A := msb64 B ^^^ counterWord b, R := bankSet b.R b.i (lsb64 B), sub := u, j := j, i := i } :=
  nextWrap_frame _

/-- A RETIRE of a block writes `A`, `R[i]` and the counters only (R173). -/
theorem retireUnwrap_ok_frame (b : Regs) (B : Block128) : ∃ u j i, retireUnwrap b (.ok B) = { b with
    A := msb64 B, R := bankSet b.R b.i (lsb64 B), sub := u, j := j, i := i } :=
  nextUnwrap_frame _

theorem finishWrap_eq (b : Regs) : finishWrap b = leaveBusy { b with outcome := .ok, rlen := b.DLEN + 8 } := rfl

/-- Every turn keeps what the status registers say of the data. -/
theorem BlockStep.keeps_statusInv {x : Turn} {b b' : Regs} (h : BlockStep x b b') (hi : b.seqInv) (hst : b.statusInv) :
    b'.statusInv := by
  cases h with
  | keep => exact hst
  | reject => exact hst
  | store slot v hp =>
    obtain ⟨ho, hperr, hrlen⟩ := noResult_of_idle hp hi hst
    obtain ⟨a, r, k, kl, dl, h⟩ := storeSlot_frame b slot v
    rw [h]
    exact statusInv_of_noResult (by simp [hp]) ho hperr hrlen
  | refuse _ ho hp =>
    refine statusInv_of_noResult (by simp [hp]) ?_ rfl rfl
    obtain rfl | rfl | rfl := ho <;> simp
  | accept m => cases m <;> exact statusInv_of_busy rfl rfl rfl rfl
  | clear => exact statusInv_reset
  | rst => exact statusInv_reset
  | issue hp =>
    obtain ⟨ho, hperr, hrlen⟩ := noResult_of_busy hp hi hst
    exact statusInv_of_busy hp ho hperr hrlen
  | fail => exact statusInv_failed (.inl rfl) rfl
  | retireWrap B hp =>
    obtain ⟨ho, hperr, hrlen⟩ := noResult_of_busy hp hi hst
    obtain ⟨u, j, i, h⟩ := retireWrap_ok_frame b B
    rw [h]
    exact statusInv_of_busy hp ho hperr hrlen
  | retireUnwrap B hp =>
    obtain ⟨ho, hperr, hrlen⟩ := noResult_of_busy hp hi hst
    obtain ⟨u, j, i, h⟩ := retireUnwrap_ok_frame b B
    rw [h]
    exact statusInv_of_busy hp ho hperr hrlen
  | finishWrap hp _ hm =>
    obtain ⟨-, hperr, -⟩ := noResult_of_busy hp hi hst
    rw [finishWrap_eq]
    simp [Regs.statusInv, hm, hperr]
  | finishUnwrap hp _ hm =>
    obtain ⟨-, hperr, -⟩ := noResult_of_busy hp hi hst
    obtain ⟨hA, h⟩ | ⟨-, h⟩ := finishUnwrap_cases b
    all_goals rw [h]
    · simp [Regs.statusInv, hm, hperr, hA]
    · exact statusInv_failed (.inr ⟨rfl, hperr, hm⟩) rfl

/-- Settles O44, by the cases of `BlockStep`. -/
theorem stepKeepsStatus : Obligations.StepKeepsStatus :=
  fun _ _ hi hst h => (blockStep_of_stepWith h).keeps_statusInv hi hst

/-- Settles O46. -/
theorem resetMeetsTheInvariants : Obligations.ResetMeetsTheInvariants :=
  ⟨seqInv_reset, statusInv_reset, fun h => absurd rfl h⟩

end Sys2Proof.Machine
end

section
/-! PROOFS. What a step can change and when: the phase, the latched operands, the unused elements, the outstanding request,
`rej`, the response port and the step counter (spec/10_state.md, spec/41_schedule.md). -/

namespace Sys2Proof.Machine

/-! The phase and the latched operands. -/

theorem eq_done_of_ne {p : Phase} (hi : p ≠ .idle) (hb : p ≠ .busy) : p = .done := by
  cases p with
  | idle => exact absurd rfl hi
  | busy => exact absurd rfl hb
  | done => rfl

/-- After `NextW` the next micro-operation is ISSUE or FIN (R141). -/
theorem nextWrap_sub_ne_wait (b : Regs) : (nextWrap b).sub ≠ .wait := by
  obtain ⟨-, h⟩ | ⟨-, -, h⟩ | ⟨-, -, h⟩ := nextWrap_cases b <;> simp [h]

/-- After `NextU` the next micro-operation is ISSUE or FIN (R142). -/
theorem nextUnwrap_sub_ne_wait (b : Regs) : (nextUnwrap b).sub ≠ .wait := by
  obtain ⟨-, h⟩ | ⟨-, -, h⟩ | ⟨-, -, h⟩ := nextUnwrap_cases b <;> simp [h]

/-- The two blocks hold the same latched operands (R26, R32, R33, R82). -/
def Regs.sameOperands (b b' : Regs) : Prop :=
  b'.K = b.K ∧ b'.KLEN = b.KLEN ∧ b'.DLEN = b.DLEN ∧ b'.mode = b.mode ∧ b'.n = b.n

/-- The end of an unwrap in DONE, with the operands and `rej` kept, and the array kept or zeroized (R174, R176). -/
theorem finishUnwrap_frame (b : Regs) : ∃ a r o l, (r = b.R ∨ r = bankZero) ∧
    finishUnwrap b = leaveBusy { b with A := a, R := r, outcome := o, rlen := l } := by
  obtain ⟨-, h⟩ | ⟨-, h⟩ := finishUnwrap_cases b
  · exact ⟨b.A, b.R, _, _, .inl rfl, h⟩
  · exact ⟨0, bankZero, _, _, .inr rfl, h⟩

/-- The phase moves in R30's ways only. -/
theorem BlockStep.phase_cases {x : Turn} {b b' : Regs} (h : BlockStep x b b') :
    b'.phase = b.phase ∨
    (x = .rst ∧ b'.phase = .idle) ∨
    (b.phase = .idle ∧ b'.phase = .busy ∧ b'.sub = .issue ∧ ∃ m, x = startLine m) ∨
    (b.phase = .busy ∧ b'.phase = .done ∧ x = .engine ∧ b.sub ≠ .issue) ∨
    (b'.phase = .idle ∧ x = clearLine ∧ b.phase ≠ .busy) := by
  cases h with
  | keep => exact .inl rfl
  | reject => exact .inl rfl
  | store slot v =>
    obtain ⟨a, r, k, kl, dl, h⟩ := storeSlot_frame b slot v
    exact .inl (by rw [h])
  | refuse => exact .inl rfl
  | accept m _ hp => cases m <;> exact .inr (.inr (.inl ⟨hp, rfl, rfl, _, rfl⟩))
  | clear hp => exact .inr (.inr (.inr (.inr ⟨rfl, rfl, hp⟩)))
  | rst => exact .inr (.inl ⟨rfl, rfl⟩)
  | issue => exact .inl rfl
  | fail _ hp hs => exact .inr (.inr (.inr (.inl ⟨hp, rfl, rfl, by simp [hs]⟩)))
  | retireWrap B =>
    obtain ⟨u, j, i, h⟩ := retireWrap_ok_frame b B
    exact .inl (by rw [h])
  | retireUnwrap B =>
    obtain ⟨u, j, i, h⟩ := retireUnwrap_ok_frame b B
    exact .inl (by rw [h])
  | finishWrap hp hs => exact .inr (.inr (.inr (.inl ⟨hp, rfl, rfl, by simp [hs]⟩)))
  | finishUnwrap hp hs =>
    obtain ⟨a, r, o, l, -, h⟩ := finishUnwrap_frame b
    exact .inr (.inr (.inr (.inl ⟨hp, by rw [h]; rfl, rfl, by simp [hs]⟩)))

/-- Settles O47. -/
theorem phaseMovesOnlyAsListed : Obligations.PhaseMovesOnlyAsListed := by
  refine ⟨fun b => by simp [doneO], fun c s t h hne => ?_⟩
  obtain hkeep | hrst | ⟨hp, hp', hs, m, hm⟩ | hdone | ⟨hp', hclear, hb⟩ := (blockStep_of_stepWith h).phase_cases
  · exact absurd hkeep hne
  · exact .inl hrst
  · exact .inr (.inl ⟨hp, hp', hs, hm ▸ startLine_eq m⟩)
  · exact .inr (.inr (.inl hdone))
  · have hdone := eq_done_of_ne (fun hp => hne (hp'.trans hp.symm)) hb
    exact .inr (.inr (.inr ⟨hdone, hp', hclear.trans clearLine_eq⟩))

/-- Outside IDLE a turn keeps the operands, or it is CLEAR or RESET and leaves the reset registers. -/
theorem BlockStep.operands_cases {x : Turn} {b b' : Regs} (h : BlockStep x b b') (hp : b.phase ≠ .idle) :
    b.sameOperands b' ∨ (b' = Regs.reset ∧ (x = .rst ∨ (b.phase ≠ .busy ∧ x = clearLine))) := by
  cases h with
  | keep => exact .inl ⟨rfl, rfl, rfl, rfl, rfl⟩
  | reject => exact .inl ⟨rfl, rfl, rfl, rfl, rfl⟩
  | store _ _ hi => exact absurd hi hp
  | refuse _ _ hi => exact absurd hi hp
  | accept _ _ hi => exact absurd hi hp
  | clear hb => exact .inr ⟨rfl, .inr ⟨hb, rfl⟩⟩
  | rst => exact .inr ⟨rfl, .inl rfl⟩
  | issue => exact .inl ⟨rfl, rfl, rfl, rfl, rfl⟩
  | fail => exact .inl ⟨rfl, rfl, rfl, rfl, rfl⟩
  | retireWrap B =>
    obtain ⟨u, j, i, h⟩ := retireWrap_ok_frame b B
    exact .inl (h ▸ ⟨rfl, rfl, rfl, rfl, rfl⟩)
  | retireUnwrap B =>
    obtain ⟨u, j, i, h⟩ := retireUnwrap_ok_frame b B
    exact .inl (h ▸ ⟨rfl, rfl, rfl, rfl, rfl⟩)
  | finishWrap => exact .inl ⟨rfl, rfl, rfl, rfl, rfl⟩
  | finishUnwrap =>
    obtain ⟨a, r, o, l, -, h⟩ := finishUnwrap_frame b
    exact .inl (h ▸ ⟨rfl, rfl, rfl, rfl, rfl⟩)

/-- Settles O48. -/
theorem latchedOperandsHoldOutsideIdle : Obligations.LatchedOperandsHoldOutsideIdle := by
  intro c s t h hp
  obtain hsame | ⟨hreset, hrst | ⟨hb, hclear⟩⟩ := (blockStep_of_stepWith h).operands_cases hp
  · exact .inr hsame
  · exact .inl ⟨hreset, .inl hrst⟩
  · exact .inl ⟨hreset, .inr ⟨eq_done_of_ne hp hb, hclear.trans clearLine_eq⟩⟩

/-! The register array and the outstanding request. -/

/-- In BUSY a turn keeps the array, zeroizes it, or writes its element `i` (R158, R173, R176, R198). -/
theorem BlockStep.array_of_busy {x : Turn} {b b' : Regs} (h : BlockStep x b b') (hp : b.phase = .busy) :
    b'.R = b.R ∨ b'.R = bankZero ∨ ∃ v, b'.R = bankSet b.R b.i v := by
  cases h with
  | keep => exact .inl rfl
  | reject => exact .inl rfl
  | store _ _ hi => exact nomatch hp.symm.trans hi
  | refuse => exact .inl rfl
  | accept _ _ hi => exact nomatch hp.symm.trans hi
  | clear => exact .inr (.inl rfl)
  | rst => exact .inr (.inl rfl)
  | issue => exact .inl rfl
  | fail => exact .inr (.inl rfl)
  | retireWrap B =>
    obtain ⟨u, j, i, h⟩ := retireWrap_ok_frame b B
    exact .inr (.inr ⟨lsb64 B, by rw [h]⟩)
  | retireUnwrap B =>
    obtain ⟨u, j, i, h⟩ := retireUnwrap_ok_frame b B
    exact .inr (.inr ⟨lsb64 B, by rw [h]⟩)
  | finishWrap => exact .inl rfl
  | finishUnwrap =>
    obtain ⟨a, r, o, l, hr, h⟩ := finishUnwrap_frame b
    rw [h]
    exact hr.imp id .inl

/-- Settles O49: the element a RETIRE writes is `R[i]`, and `i` is below `n` (R37 (b)). -/
theorem unusedElementsKeepTheirValue : Obligations.UnusedElementsKeepTheirValue := by
  intro c s t hinv hp h
  obtain hR | hR | ⟨v, hR⟩ := (blockStep_of_stepWith h).array_of_busy hp
  · exact .inr fun q _ => by rw [hR]
  · exact .inl hR
  · obtain ⟨hr, -, -⟩ := (seqInv_iff_of_busy hp).1 hinv
    obtain ⟨hn, -, hi, -⟩ := hr hp
    have hlt : s.regs.i.toNat < s.regs.n.toNat := by obtain hn | hn | hn := hn <;> simp [hn] at hi ⊢ <;> omega
    refine .inr fun q hq => ?_
    rw [hR, bankGet_bankSet_ne]
    rintro rfl
    omega

/-- A turn that starts and ends with a request outstanding changes no register but `rej` (R45, R73). -/
theorem BlockStep.noRej_eq_of_outstanding {x : Turn} {b b' : Regs} (h : BlockStep x b b')
    (ho : outstanding b = true) (ho' : outstanding b' = true) : b'.noRej = b.noRej := by
  obtain ⟨hp, hs⟩ := (outstanding_iff b).1 ho
  obtain ⟨hp', hs'⟩ := (outstanding_iff b').1 ho'
  cases h with
  | keep => rfl
  | reject => rfl
  | store _ _ hi => exact nomatch hp.symm.trans hi
  | refuse _ _ hi => exact nomatch hp.symm.trans hi
  | accept _ _ hi => exact nomatch hp.symm.trans hi
  | clear => exact nomatch hp'
  | rst => exact nomatch hp'
  | issue _ hi => exact nomatch hs.symm.trans hi
  | fail => exact nomatch hp'
  | retireWrap => exact absurd hs' (nextWrap_sub_ne_wait _)
  | retireUnwrap => exact absurd hs' (nextUnwrap_sub_ne_wait _)
  | finishWrap => exact nomatch hp'
  | finishUnwrap _ hf => exact nomatch hs.symm.trans hf

/-- The request on the port is a function of the registers without `rej` (R192). -/
theorem cipherRequest_noRej (b : Regs) : cipherRequest b.noRej = cipherRequest b := rfl

/-- Settles O50. -/
theorem requestIsConstantWhileOutstanding : Obligations.RequestIsConstantWhileOutstanding := by
  intro c s t h ho ho'
  rw [← cipherRequest_noRej t.regs, (blockStep_of_stepWith h).noRej_eq_of_outstanding ho ho', cipherRequest_noRej]

/-! `rej` (R39, R216). -/

/-- A turn keeps `rej`, or it is a refused host write, CLEAR or RESET. -/
theorem BlockStep.rej_cases {x : Turn} {b b' : Regs} (h : BlockStep x b b') :
    b'.rej = b.rej ∨
    (b'.rej = true ∧ ∃ w, x = .host w ∧ w.extractLsb' 68 1 = 1#1) ∨
    (b'.rej = false ∧ (x = .rst ∨ x = clearLine)) := by
  cases h with
  | keep => exact .inl rfl
  | reject _ hw => exact .inr (.inl ⟨rfl, _, rfl, hw⟩)
  | store slot v =>
    obtain ⟨a, r, k, kl, dl, h⟩ := storeSlot_frame b slot v
    exact .inl (by rw [h])
  | refuse => exact .inl rfl
  | accept m => exact .inl rfl
  | clear => exact .inr (.inr ⟨rfl, .inr rfl⟩)
  | rst => exact .inr (.inr ⟨rfl, .inl rfl⟩)
  | issue => exact .inl rfl
  | fail => exact .inl rfl
  | retireWrap B =>
    obtain ⟨u, j, i, h⟩ := retireWrap_ok_frame b B
    exact .inl (by rw [h])
  | retireUnwrap B =>
    obtain ⟨u, j, i, h⟩ := retireUnwrap_ok_frame b B
    exact .inl (by rw [h])
  | finishWrap => exact .inl rfl
  | finishUnwrap =>
    obtain ⟨a, r, o, l, -, h⟩ := finishUnwrap_frame b
    exact .inl (by rw [h]; rfl)

/-- Settles O22. -/
theorem rejIsSetByHostWritesOnly : Obligations.RejIsSetByHostWritesOnly := by
  intro c s t h
  obtain hkeep | ⟨htrue, hw⟩ | ⟨hfalse, hx⟩ := (blockStep_of_stepWith h).rej_cases
  · exact ⟨fun h0 h1 => by simp_all, fun h1 h0 => by simp_all⟩
  · exact ⟨fun _ _ => hw, fun _ h0 => by simp_all⟩
  · exact ⟨fun _ h1 => by simp_all, fun _ _ => hx.imp id (·.trans clearLine_eq)⟩

/-! The response port (R45, R196 (a), R241). -/

/-- A response held is held with a request outstanding after every step, if it was before. -/
theorem portInv_of_stepWith {c : Cipher} {s t : State} (hi : s.portInv) (h : stepWith c s = .next t) : t.portInv := by
  intro hc
  obtain rfl | ⟨w, slot, -, -, rfl⟩ | ⟨w, slot, v, -, -, -, -, rfl⟩ | ⟨-, -, hs, rfl⟩ |
    ⟨r, -, -, -, -, hr⟩ | ⟨-, -, hs, hf⟩ | ⟨r, -, hp, hs, -, rfl⟩ | ⟨-, rfl⟩ := stepWith_cases h
  · exact hi hc
  · exact hi hc
  · have ho := hi hc
    have hb : s.regs.phase = .busy := ((outstanding_iff _).1 ho).1
    rw [State.writeSlot_regs, State.advance_regs, hostWrite_busy hb]
    exact ho
  · exact nomatch hs.symm.trans ((outstanding_iff _).1 (hi hc)).2
  · obtain ⟨-, rfl⟩ | ⟨-, rfl⟩ := hr <;> exact absurd rfl hc
  · have hc' : s.crsp ≠ none := by obtain ⟨-, rfl⟩ | ⟨-, rfl⟩ := hf <;> exact hc
    exact nomatch hs.symm.trans ((outstanding_iff _).1 (hi hc')).2
  · exact (outstanding_iff _).2 ⟨hp, hs⟩
  · exact absurd rfl hc

/-- Settles O45. -/
theorem stepKeepsTheResponsePort : Obligations.StepKeepsTheResponsePort :=
  fun _ _ hi h => portInv_of_stepWith hi h

/-! The step counter (R137, R141, R142, R145). -/

/-- `t` of the current counters (R36, R137). -/
def stepNumber (b : Regs) : Nat := stepCounter b.n.toNat b.j.toNat b.i.toNat

/-- `NextW` takes `t` up by one, and to FIN after `t = 6n`. -/
theorem nextWrap_stepNumber {b : Regs} (hp : b.phase = .busy) (hr : b.busyRanges) :
    (stepNumber b < 6 * b.n.toNat →
      stepNumber (nextWrap b) = stepNumber b + 1 ∧ (nextWrap b).sub = .issue) ∧
    (stepNumber b = 6 * b.n.toNat → (nextWrap b).sub = .fin) := by
  obtain ⟨hn, hj, hi, -⟩ := hr hp
  have hn4 : b.n.toNat ≤ 4 := by obtain h | h | h := hn <;> simp [h]
  have hnj : b.n.toNat * b.j.toNat ≤ b.n.toNat * 5 := Nat.mul_le_mul_left _ hj
  unfold stepNumber stepCounter
  obtain ⟨hlt, h⟩ | ⟨hge, hlt, h⟩ | ⟨hge, hge5, h⟩ := nextWrap_cases b
  all_goals rw [h]
  · have hi' : (b.i + 1).toNat = b.i.toNat + 1 := toNat_add_one (by omega)
    exact ⟨fun _ => ⟨by dsimp only; omega, rfl⟩, fun ht => by omega⟩
  · have hj' : (b.j + 1).toNat = b.j.toNat + 1 := toNat_add_one (by omega)
    have hnj' : b.n.toNat * b.j.toNat ≤ b.n.toNat * 4 := Nat.mul_le_mul_left _ (by omega)
    refine ⟨fun _ => ⟨?_, rfl⟩, fun ht => ?_⟩
    · simp only [hj', Nat.mul_succ]
      simp
      omega
    · omega
  · have hj5 : b.n.toNat * b.j.toNat = b.n.toNat * 5 := by rw [le_antisymm hj (not_lt.1 hge5)]
    exact ⟨fun ht => by omega, fun _ => rfl⟩

/-- `NextU` takes `t` down by one, and to FIN after `t = 1`. -/
theorem nextUnwrap_stepNumber {b : Regs} (hp : b.phase = .busy) (hr : b.busyRanges) :
    (1 < stepNumber b → stepNumber (nextUnwrap b) + 1 = stepNumber b ∧ (nextUnwrap b).sub = .issue) ∧
    (stepNumber b = 1 → (nextUnwrap b).sub = .fin) := by
  obtain ⟨hn, -, -, -⟩ := hr hp
  have hn1 : 0 < b.n.toNat ∧ b.n.toNat ≤ 4 := by obtain h | h | h := hn <;> simp [h]
  unfold stepNumber stepCounter
  obtain ⟨hlt, h⟩ | ⟨hi0, hlt, h⟩ | ⟨hi0, hj0, h⟩ := nextUnwrap_cases b
  all_goals rw [h]
  · have hi' : (b.i - 1).toNat = b.i.toNat - 1 := toNat_sub_one hlt
    exact ⟨fun _ => ⟨by dsimp only; omega, rfl⟩, fun ht => by omega⟩
  · have hj' : (b.j - 1).toNat = b.j.toNat - 1 := toNat_sub_one hlt
    have hn' : (BitVec.ofNat 2 (b.n.toNat - 1)).toNat = b.n.toNat - 1 := Nat.mod_eq_of_lt (by omega)
    have hnj : b.n.toNat * b.j.toNat = b.n.toNat * (b.j.toNat - 1) + b.n.toNat := by
      rw [← Nat.mul_succ, Nat.succ_eq_add_one, Nat.sub_add_cancel hlt]
    refine ⟨fun _ => ⟨?_, rfl⟩, fun ht => by omega⟩
    simp only [hj', hn']
    omega
  · have hj : b.n.toNat * b.j.toNat = 0 := by rw [Nat.eq_zero_of_not_pos hj0, Nat.mul_zero]
    exact ⟨fun ht => by omega, fun _ => rfl⟩

/-- Settles O42: a RETIRE of a block ends with `NextW` or `NextU`. -/
theorem counterMovesByOne : Obligations.CounterMovesByOne := by
  intro b B hinv hp hs
  obtain ⟨hr, -, -⟩ := (seqInv_iff_of_busy hp).1 hinv
  exact ⟨fun _ => nextWrap_stepNumber
    (b := { b with A := msb64 B ^^^ counterWord b, R := bankSet b.R b.i (lsb64 B) }) hp hr,
    fun _ => nextUnwrap_stepNumber
    (b := { b with A := msb64 B, R := bankSet b.R b.i (lsb64 B) }) hp hr⟩

end Sys2Proof.Machine
end

section
/-! PROOFS. `rej` influences nothing but itself (R39, R216): what each operation makes of a block with another `rej` is what it
makes of the block, but for `rej`; so machines that differ in `rej` and in the last value read take the same steps. -/

namespace Sys2Proof.Machine

/-! The operations on the registers. -/

theorem nextWrap_setRej (b : Regs) (r : Bool) : (nextWrap { b with rej := r }).noRej = (nextWrap b).noRej := by
  unfold nextWrap
  dsimp only
  split_ifs <;> rfl

theorem nextUnwrap_setRej (b : Regs) (r : Bool) : (nextUnwrap { b with rej := r }).noRej = (nextUnwrap b).noRej := by
  unfold nextUnwrap
  dsimp only
  split_ifs <;> rfl

theorem retireWrap_setRej (b : Regs) (r : Bool) (x : Response) :
    (retireWrap { b with rej := r } x).noRej = (retireWrap b x).noRej := by
  cases x with
  | ok B => exact nextWrap_setRej { b with A := msb64 B ^^^ counterWord b, R := bankSet b.R b.i (lsb64 B) } r
  | err code => rfl

theorem retireUnwrap_setRej (b : Regs) (r : Bool) (x : Response) :
    (retireUnwrap { b with rej := r } x).noRej = (retireUnwrap b x).noRej := by
  cases x with
  | ok B => exact nextUnwrap_setRej { b with A := msb64 B, R := bankSet b.R b.i (lsb64 B) } r
  | err code => rfl

theorem finishUnwrap_setRej (b : Regs) (r : Bool) :
    (finishUnwrap { b with rej := r }).noRej = (finishUnwrap b).noRej := by
  unfold finishUnwrap
  dsimp only
  split_ifs <;> rfl

theorem start_setRej (m : Mode) (b : Regs) (r : Bool) : (start m { b with rej := r }).noRej = (start m b).noRej := by
  have hl : lengthError m { b with rej := r } = lengthError m b := rfl
  unfold start
  rw [hl]
  cases lengthError m b with
  | none => rfl
  | some e => cases e <;> rfl

theorem startInIdle_setRej (m : Mode) (b : Regs) (r : Bool) :
    (if b.phase = .idle then start m { b with rej := r } else reject { b with rej := r }).noRej =
      (if b.phase = .idle then start m b else reject b).noRej := by
  split_ifs
  · exact start_setRej m b r
  · rfl

theorem command_setRej (v : Semi) (b : Regs) (r : Bool) :
    (command v { b with rej := r }).noRej = (command v b).noRej := by
  obtain ⟨rfl, -⟩ | ⟨rfl, -⟩ | ⟨rfl, -⟩ | ⟨rfl, -⟩ | ⟨hv, -⟩ := command_cases v b
  · rfl
  · exact startInIdle_setRej .wrap b r
  · exact startInIdle_setRej .unwrap b r
  · rfl
  · rw [command_illegal hv, command_illegal hv]
    rfl

theorem hostStore_setRej (b : Regs) (r : Bool) (slot : Slot) (v : Semi) :
    (hostStore { b with rej := r } slot v).noRej = (hostStore b slot v).noRej := by
  unfold hostStore
  dsimp only
  split_ifs
  · cases slot <;> rfl
  · rfl

theorem hostWrite_setRej (b : Regs) (r : Bool) (slot : Slot) (v : Semi) :
    (hostWrite { b with rej := r } slot v).noRej = (hostWrite b slot v).noRej := by
  by_cases hp : b.phase = .busy
  · rw [hostWrite_busy hp, hostWrite_busy (b := { b with rej := r }) hp]
    rfl
  · unfold hostWrite
    rw [if_neg hp, if_neg (show ¬ ({ b with rej := r } : Regs).phase = .busy from hp)]
    cases slot with
    | cmd => exact command_setRej v b r
    | klen | dlen | k q | a | r q => exact hostStore_setRej b r _ v
    | status | s13 | s14 | s15 => rfl

/-! The machine. -/

/-- Two machines with the same registers but for `rej`, the same response on the port and the same turns to come; the last value
read may differ, since a read of STATUS shows `rej`. -/
structure State.sameButRej (u t : State) : Prop where
  regs : u.regs.noRej = t.regs.noRej
  crsp : u.crsp = t.crsp
  turns : u.turns = t.turns

/-- The machine with another `rej` and another last value read. -/
def State.setRej (s : State) (r : Bool) (d : Semi) : State := { s with regs := { s.regs with rej := r }, rdata := d }

theorem State.setRej_sameButRej (s : State) (r : Bool) (d : Semi) : (s.setRej r d).sameButRej s := ⟨rfl, rfl, rfl⟩

theorem Regs.eq_of_noRej_eq {b b' : Regs} (h : b'.noRej = b.noRej) : b' = { b with rej := b'.rej } := by
  cases b
  cases b'
  simpa [Regs.noRej] using h

theorem State.sameButRej.eq_setRej {u s : State} (h : u.sameButRej s) : u = s.setRej u.regs.rej u.rdata := by
  obtain ⟨b, x, d, ts⟩ := u
  obtain ⟨hregs, rfl, rfl⟩ := h
  exact congrArg (State.mk · _ d _) (Regs.eq_of_noRej_eq hregs)

theorem retireStep_setRej (s : State) (r : Bool) (d : Semi) (m : Mode) {op : Regs → Response → Regs}
    (hop : ∀ x, (op { s.regs with rej := r } x).noRej = (op s.regs x).noRej) :
    ((s.setRej r d).retireStep m op).sameButRej (s.retireStep m op) := by
  have hc : (s.setRej r d).crsp = s.crsp := rfl
  have hsel : selected (s.setRej r d).regs .wait m = selected s.regs .wait m := rfl
  unfold State.retireStep
  rw [hc, hsel]
  cases s.crsp with
  | none => exact s.setRej_sameButRej r d
  | some x =>
    dsimp only
    split_ifs
    · exact ⟨hop x, rfl, rfl⟩
    · exact s.setRej_sameButRej r d

theorem takeResponse_setRej (s : State) (r : Bool) (d : Semi) (x : Response) :
    ((s.setRej r d).takeResponse x).sameButRej (s.takeResponse x) := by
  have hc : (outstanding (s.setRej r d).regs && (s.setRej r d).crsp.isNone) =
    (outstanding s.regs && s.crsp.isNone) := rfl
  unfold State.takeResponse
  rw [hc]
  split_ifs
  · exact ⟨rfl, rfl, rfl⟩
  · exact s.setRej_sameButRej r d

/-- One step of a machine with another `rej`. -/
theorem stepWith_setRej (c : Cipher) (s t : State) (r : Bool) (d : Semi) (h : stepWith c s = .next t) :
    ∃ u, stepWith c (s.setRej r d) = .next u ∧ u.sameButRej t := by
  cases hx : nextTurn s with
  | host w =>
    rw [stepWith_host c s w hx] at h
    rw [stepWith_host c (s.setRej r d) w hx]
    split_ifs at h ⊢ <;> cases h
    · exact ⟨_, rfl, rfl, rfl, rfl⟩
    · exact ⟨_, rfl, hostWrite_setRej s.regs r _ _, rfl, rfl⟩
  | engine =>
    rw [stepWith_engine c s hx] at h
    cases h
    refine ⟨_, stepWith_engine c (s.setRej r d) hx, ?_⟩
    by_cases hp : s.regs.phase = .busy
    · rw [if_pos hp, if_pos (show (s.setRej r d).regs.phase = .busy from hp)]
      rw [show (s.setRej r d).regs.sub = s.regs.sub from rfl, show (s.setRej r d).regs.mode = s.regs.mode from rfl]
      cases s.regs.sub with
      | issue => cases s.regs.mode <;> exact ⟨rfl, rfl, rfl⟩
      | wait =>
        cases s.regs.mode with
        | wrap => exact retireStep_setRej s.advance r d .wrap (retireWrap_setRej s.regs r)
        | unwrap => exact retireStep_setRej s.advance r d .unwrap (retireUnwrap_setRej s.regs r)
      | fin =>
        cases s.regs.mode with
        | wrap => exact ⟨rfl, rfl, rfl⟩
        | unwrap => exact ⟨finishUnwrap_setRej s.regs r, rfl, rfl⟩
    · rw [if_neg hp, if_neg (show ¬ (s.setRej r d).regs.phase = .busy from hp)]
      exact s.advance.setRej_sameButRej r d
  | answer =>
    rw [stepWith_answer c s hx] at h
    cases h
    refine ⟨_, stepWith_answer c (s.setRej r d) hx, ?_⟩
    rw [show outstanding (s.setRej r d).regs = outstanding s.regs from rfl]
    split_ifs
    · exact takeResponse_setRej s.advance r d _
    · exact s.advance.setRej_sameButRej r d
  | respond w =>
    rw [stepWith_respond c s w hx] at h
    cases h
    exact ⟨_, stepWith_respond c (s.setRej r d) w hx, takeResponse_setRej s.advance r d _⟩
  | rst =>
    rw [stepWith_rst c s hx] at h
    cases h
    exact ⟨_, stepWith_rst c (s.setRej r d) hx, rfl, rfl, rfl⟩

/-- Machines that differ in `rej` and in the last value read only take the same steps. -/
theorem State.sameButRej.stepWith {c : Cipher} {s s' t : State} (hs : s'.sameButRej s)
    (h : stepWith c s = .next t) : ∃ u, Machine.stepWith c s' = .next u ∧ u.sameButRej t := by
  rw [hs.eq_setRej]
  exact stepWith_setRej c s t _ _ h

/-- Settles O53. -/
theorem rejInfluencesNothingElse : Obligations.RejInfluencesNothingElse := by
  intro c s t r h
  obtain ⟨u, hu, hsame⟩ := (s.setRej_sameButRej r s.rdata).stepWith h
  exact ⟨u, hu, hsame.regs, hsame.crsp, hsame.turns⟩

end Sys2Proof.Machine
end

section
/-! PROOFS. The host port and the reset table: what STATUS, a write in IDLE and a read show, what no read shows, and LOADKEK
(spec/10_state.md, spec/20_memory.md, spec/30_encoding.md). -/

namespace Sys2Proof.Machine

/-! STATUS, field by field (R42). -/

/-- A field of STATUS is the field of the 32 bits that the view extends. -/
theorem statusView_field (b : Regs) {s m : Nat} (h : s + m ≤ 64) : (statusView b).extractLsb' s m =
    (b.perr ++ b.rlen ++ rejBit b.rej ++ outcomeCode b.outcome ++ 0#1 ++ modeCode b.mode ++
      phaseCode b.phase).extractLsb' s m :=
  BitVec.extractLsb'_setWidth_of_le h

theorem statusView_mode (b : Regs) : (statusView b).extractLsb' 2 1 = modeCode b.mode := by
  simp (disch := decide) only [statusView_field, extract_append_high, extract_append_low, Nat.reduceSub, extract_all]

theorem statusView_bit3 (b : Regs) : (statusView b).extractLsb' 3 1 = 0#1 := by
  simp (disch := decide) only [statusView_field, extract_append_high, extract_append_low, Nat.reduceSub, extract_all]

theorem statusView_outcome (b : Regs) : (statusView b).extractLsb' 4 3 = outcomeCode b.outcome := by
  simp (disch := decide) only [statusView_field, extract_append_high, extract_append_low, Nat.reduceSub, extract_all]

theorem statusView_rej (b : Regs) : (statusView b).extractLsb' 7 1 = rejBit b.rej := by
  simp (disch := decide) only [statusView_field, extract_append_high, extract_append_low, Nat.reduceSub, extract_all]

theorem statusView_rlen (b : Regs) : (statusView b).extractLsb' 8 8 = b.rlen := by
  simp (disch := decide) only [statusView_field, extract_append_high, extract_append_low, Nat.reduceSub, extract_all]

theorem statusView_perr (b : Regs) : (statusView b).extractLsb' 16 16 = b.perr := by
  simp (disch := decide) only [statusView_field, extract_append_high, Nat.reduceSub, extract_all]

theorem statusView_high (b : Regs) : (statusView b).extractLsb' 32 32 = 0#32 := by
  simp (disch := decide) only [statusView_field, extract_append_high, Nat.reduceSub]
  ext i hi
  simp

/-- Settles O14. -/
theorem statusFieldsReadBack : Obligations.StatusFieldsReadBack := by
  intro s
  refine ⟨⟨statusView s.regs, rfl, ?_, ?_, statusView_bit3 _, ?_, statusView_rej _, statusView_rlen _,
    statusView_perr _, statusView_high _⟩, fun w => ?_⟩
  · rw [statusView_phase]
    rfl
  · rw [statusView_mode]
    rfl
  · rw [statusView_outcome]
    rfl
  · have hw : hostWrite s.regs .status w = reject s.regs := by
      unfold hostWrite
      split <;> rfl
    rw [exec_wr, State.writeSlot, hw]
    rfl

/-! Writes and reads in IDLE. -/

/-- Settles O10. -/
theorem resetLeavesTheTable : Obligations.ResetLeavesTheTable :=
  ⟨fun s => ⟨s.resetStep, rfl, rfl, rfl⟩, rfl, rfl, rfl, by decide, rfl⟩

/-- The slots that the host owns in IDLE: the registers it loads (R71, R72). -/
def loadable : Slot → Prop
  | .klen | .dlen | .k _ | .a | .r _ => True
  | .cmd | .status | .s13 | .s14 | .s15 => False

/-- In IDLE a write to a register slot is a store (R71). -/
theorem exec_wr_idle {s : State} (hp : s.regs.phase = .idle) (slot : Slot) (hl : loadable slot) (v : Semi) :
    exec (.wr slot v) s = .next (s.withRegs (storeSlot s.regs slot v)) := by
  have hw : hostWrite s.regs slot v = storeSlot s.regs slot v := by
    cases slot with
    | klen | dlen | k q | a | r q => simp [hostWrite, hostStore, hp]
    | cmd | status | s13 | s14 | s15 => exact hl.elim
  rw [exec_wr, State.writeSlot, hw]

/-- Settles O15. -/
theorem idleWriteStoresTheSlot : Obligations.IdleWriteStoresTheSlot := fun s v hp =>
  ⟨by simp [doneO, hp], exec_wr_idle hp .klen trivial v, exec_wr_idle hp .dlen trivial v,
    fun q => exec_wr_idle hp (.k q) trivial v, exec_wr_idle hp .a trivial v,
    fun q => exec_wr_idle hp (.r q) trivial v⟩

/-- A length reads back saturated (R27, R28). -/
theorem saturate_setWidth (v : Semi) : (saturate v).setWidth 64 = BitVec.ofNat 64 (min v.toNat 255) := by
  apply BitVec.eq_of_toNat_eq
  simp only [saturate, BitVec.toNat_setWidth, BitVec.toNat_ofNat]
  omega

/-- What a slot the host owns in IDLE reads back after a write of `v` (R27, R28, R70). -/
def readBack (slot : Slot) (v : Semi) : Semi :=
  match slot with
  | .klen | .dlen => BitVec.ofNat 64 (min v.toNat 255)
  | .k _ => 0
  | _ => v

theorem hostRead_storeSlot_same {b : Regs} (hp : b.phase = .idle) {slot : Slot} (hl : loadable slot) (v : Semi) :
    hostRead (storeSlot b slot v) slot = readBack slot v := by
  cases slot with
  | klen => exact saturate_setWidth v
  | dlen => exact saturate_setWidth v
  | k q => rfl
  | a => simp [hostRead, storeSlot, readBack, hp]
  | r q => simp [hostRead, storeSlot, readBack, hp]
  | cmd | status | s13 | s14 | s15 => exact hl.elim

/-- A store shows in no other slot (R22, R79). -/
theorem hostRead_storeSlot_ne (b : Regs) {slot other : Slot} (hne : other ≠ slot) (v : Semi) :
    hostRead (storeSlot b slot v) other = hostRead b other := by
  cases slot with
  | klen =>
    cases other with
    | klen => exact absurd rfl hne
    | _ => rfl
  | dlen =>
    cases other with
    | dlen => exact absurd rfl hne
    | _ => rfl
  | k q => cases other <;> rfl
  | a =>
    cases other with
    | a => exact absurd rfl hne
    | _ => rfl
  | r q =>
    cases other with
    | r q' =>
      have hq : q' ≠ q := fun h => hne (congrArg Slot.r h)
      simp [hostRead, storeSlot, bankGet_bankSet_ne b.R v hq]
    | _ => rfl
  | cmd | status | s13 | s14 | s15 => rfl

/-- Settles O16: a write in IDLE is a store, which reads back in its own slot and shows in no other. -/
theorem writeThenReadInIdle : Obligations.WriteThenReadInIdle := by
  intro s slot v hp hcmd hstatus h13 h14 h15
  have hl : loadable slot := by
    cases slot with
    | klen | dlen | k q | a | r q => trivial
    | cmd => exact hcmd rfl
    | status => exact hstatus rfl
    | s13 => exact h13 rfl
    | s14 => exact h14 rfl
    | s15 => exact h15 rfl
  refine ⟨_, exec_wr_idle hp slot hl v, ?_, fun other hne => hostRead_storeSlot_ne s.regs hne v⟩
  refine (hostRead_storeSlot_same hp hl v).trans ?_
  cases slot <;> rfl

/-! What the host cannot see (R26, R44, R73). -/

/-- Settles O51: no line of `HostRead` reads `K`. -/
theorem kekIsUnreadable : Obligations.KekIsUnreadable := by
  refine fun b k => ⟨fun slot => ?_, rfl⟩
  cases slot <;> rfl

/-- Settles O52: in BUSY the slots of `A` and `R` read 0, and no other slot shows the work. -/
theorem busyHidesTheWork : Obligations.BusyHidesTheWork := by
  refine fun b a r u n j i hp => ⟨fun slot => ?_, rfl⟩
  cases slot with
  | a => simp [hostRead, hp]
  | r q => simp [hostRead, hp]
  | _ => rfl

/-! LOADKEK (R25, R60, R90, R101). -/

/-- The first `p` bytes of a semiblock, shifted in one after the other. -/
def packBytes (byte : Nat → Byte) (p : Nat) : Semi :=
  (List.range p).foldl (fun acc k => (acc <<< 8) ||| (byte k).setWidth 64) 0

theorem packBytes_succ (byte : Nat → Byte) (p : Nat) :
    packBytes byte (p + 1) = (packBytes byte p <<< 8) ||| (byte p).setWidth 64 := by
  simp [packBytes, List.range_succ]

theorem semiblock_eq_packBytes (bytes : List Byte) (k : Nat) :
    semiblock bytes k = packBytes (fun m => bytes.getD (8 * k + m) 0) 8 := rfl

/-- Of `p` bytes shifted in, byte `m` has the `p - 1 - m` later ones below it. -/
theorem extract_packBytes (byte : Nat → Byte) {p m : Nat} (hp : p ≤ 8) (hm : m < p) :
    (packBytes byte p).extractLsb' (8 * (p - 1 - m)) 8 = byte m := by
  induction p with
  | zero => omega
  | succ p ih =>
    rw [packBytes_succ, BitVec.extractLsb'_or]
    obtain rfl | hlt := Nat.eq_or_lt_of_le (Nat.le_of_lt_succ hm)
    · ext i hi
      simp [hi]
      omega
    · have hbelow : 8 * (p + 1 - 1 - m) = 8 * (p - 1 - m) + 8 := by omega
      rw [← ih (by omega) hlt, hbelow]
      ext i hi
      have hin : 8 * (p - 1 - m) + 8 + i < 64 := by omega
      have hge : ¬ 8 * (p - 1 - m) + 8 + i < 8 := by omega
      have hidx : 8 * (p - 1 - m) + 8 + i - 8 = 8 * (p - 1 - m) + i := by omega
      have hout : (byte p).getLsbD (8 * (p - 1 - m) + 8 + i) = false := BitVec.getLsbD_of_ge _ _ (by omega)
      simp only [BitVec.getElem_or, BitVec.getElem_extractLsb', BitVec.getLsbD_shiftLeft, BitVec.getLsbD_setWidth,
        hin, hge, hidx, hout]
      simp

/-- Byte `m` of a semiblock, the first one most significant (R60). -/
theorem extract_semiblock (bytes : List Byte) (k : Nat) {m : Nat} (hm : m < 8) :
    (semiblock bytes k).extractLsb' (56 - 8 * m) 8 = bytes.getD (8 * k + m) 0 := by
  have hpos : 56 - 8 * m = 8 * (8 - 1 - m) := by omega
  rw [semiblock_eq_packBytes, hpos, extract_packBytes _ le_rfl hm]

/-- A bank with the values of `v` stored at these indices, one after the other. -/
def bankStores (k : Quad) (v : Nat → Semi) (qs : List Nat) : Quad :=
  qs.foldl (fun b q => bankSet b (BitVec.ofNat 2 q) (v q)) k

/-- The first `m` registers hold their new values, the others what they held. -/
theorem bankGet_bankStores_range (k : Quad) (v : Nat → Semi) {m : Nat} (hm : m ≤ 4) (q : BitVec 2) :
    bankGet (bankStores k v (List.range m)) q = if q.toNat < m then v q.toNat else bankGet k q := by
  induction m with
  | zero => rfl
  | succ m ih =>
    have hstep : bankStores k v (List.range (m + 1)) =
        bankSet (bankStores k v (List.range m)) (BitVec.ofNat 2 m) (v m) := by
      simp [bankStores, List.range_succ]
    have hto : (BitVec.ofNat 2 m).toNat = m := Nat.mod_eq_of_lt hm
    rw [hstep]
    by_cases hq : q = BitVec.ofNat 2 m
    · rw [hq, bankGet_bankSet_same, hto, if_pos (Nat.lt_succ_self m)]
    · have hne : q.toNat ≠ m := fun h => hq (BitVec.eq_of_toNat_eq (h.trans hto.symm))
      rw [bankGet_bankSet_ne _ _ hq, ih (by omega)]
      simp only [Nat.lt_succ_iff_lt_or_eq, hne, or_false]

/-- A write line of a slot the host owns in IDLE is a store (R71, R100). -/
theorem stepWith_wrLine_idle (c : Cipher) {s : State} (hp : s.regs.phase = .idle) (slot : Slot) (hl : loadable slot)
    (v : Semi) (ts : List Turn) : stepWith c (s.withTurns (wrLine slot v :: ts)) =
      .next ((s.withRegs (storeSlot s.regs slot v)).withTurns ts) := by
  rw [stepWith_host c _ (hostxWord 1 slot v) rfl, extract_hostx_we, extract_hostx_idx, extract_hostx_wdata,
    slotOfIdx_slotIdx, if_neg (by decide)]
  exact exec_wr_idle (s := s.withTurns ts) hp slot hl v

/-- In IDLE the key lines of a script store the KEK's registers, whatever their order (R101). -/
theorem run_keyLines (c : Cipher) {s : State} (hp : s.regs.phase = .idle) (v : Nat → Semi) (qs : List Nat) :
    (coreWith c).run qs.length (s.withTurns (qs.map fun q => wrLine (.k (BitVec.ofNat 2 q)) (v q))) =
      .next ((s.withRegs { s.regs with K := bankStores s.regs.K v qs }).withTurns []) := by
  induction qs generalizing s with
  | nil => rfl
  | cons q qs ih =>
    rw [List.length_cons, List.map_cons, run_succ _ (stepWith_wrLine_idle c hp (.k (BitVec.ofNat 2 q)) trivial _ _)]
    exact ih hp

/-- The length a KEK of legal length leaves in KLEN (R27, R101). -/
theorem saturate_lengthWord_of_le {bytes : List Byte} (h : bytes.length ≤ 255) :
    saturate (lengthWord bytes) = BitVec.ofNat 8 bytes.length := by
  apply BitVec.eq_of_toNat_eq
  rw [saturate_lengthWord, BitVec.toNat_ofNat]
  omega

/-- Settles O60: the first line stores KLEN, the others the semiblocks, of which there are `L/8`. -/
theorem loadKekPlacesTheKey : Obligations.LoadKekPlacesTheKey := by
  intro c s kek hp hlen
  have hn : loadedSemiblocks kek 4 = kek.length / 8 ∧ kek.length % 8 = 0 ∧ kek.length / 8 ≤ 4 := by
    unfold loadedSemiblocks
    omega
  obtain ⟨hload, hmod, hle⟩ := hn
  refine ⟨bankStores s.regs.K (semiblock kek) (List.range (kek.length / 8)), ?_, fun q hq m hm => ?_, fun q hq => ?_⟩
  · have hrun := run_keyLines c (s := s.withRegs (storeSlot s.regs .klen (lengthWord kek))) hp (semiblock kek)
      (List.range (kek.length / 8))
    rw [loadKek, hload, List.length_cons, List.length_map, run_succ _ (stepWith_wrLine_idle c hp .klen trivial _ _),
      hrun, ← saturate_lengthWord_of_le (bytes := kek) (by omega)]
    rfl
  · rw [bankGet_bankStores_range _ _ hle, if_pos (by omega), extract_semiblock kek _ hm]
  · rw [bankGet_bankStores_range _ _ hle, if_neg (by omega)]

end Sys2Proof.Machine
end

section
/-! PROOFS. The host port against the rest of the machine: what a read returns and which writes each phase refuses; the
engine while the adapter is silent; and runs with their host reads taken out (spec/20_memory.md, spec/44_cipher_port.md). -/

namespace Sys2Proof.Machine

/-! The encoding tables (R68, R86, R87, R97, R194). -/

/-- Settles O5: fixed words, which the decoder evaluates. -/
theorem sampleWordsDecode : Obligations.SampleWordsDecode := by
  unfold Obligations.SampleWordsDecode
  decide

/-! Reads (R70). -/

/-- Settles O13: `RD` is `HostRead`, whose lines these are. -/
theorem hostReadReturnsTheSlot : Obligations.HostReadReturnsTheSlot := fun s =>
  ⟨exec_rd s .cmd, exec_rd s .status, exec_rd s .klen, exec_rd s .dlen, fun q => exec_rd s (.k q), exec_rd s .a,
    fun q => exec_rd s (.r q), exec_rd s .s13, exec_rd s .s14, exec_rd s .s15⟩

/-- Outside BUSY the accumulator is readable (R70, R74). -/
theorem hostRead_a_of_not_busy {b : Regs} (hp : b.phase ≠ .busy) : hostRead b .a = b.A := if_neg hp

/-- Outside BUSY the array is readable (R70, R74). -/
theorem hostRead_r_of_not_busy {b : Regs} (hp : b.phase ≠ .busy) (q : BitVec 2) : hostRead b (.r q) = bankGet b.R q :=
  if_neg hp

theorem hostRead_a_of_busy {b : Regs} (hp : b.phase = .busy) : hostRead b .a = 0 := if_pos hp

theorem hostRead_r_of_busy {b : Regs} (hp : b.phase = .busy) (q : BitVec 2) : hostRead b (.r q) = 0 := if_pos hp

/-! Refused writes (R73 to R75, R216). -/

/-- A host write acts on the registers only; a refused one, which leaves `reject s.regs`, on `rej` only (R216). -/
theorem exec_wr_of_hostWrite {s : State} {slot : Slot} {v : Semi} {b : Regs} (h : hostWrite s.regs slot v = b) :
    exec (.wr slot v) s = .next (s.withRegs b) := by
  rw [exec_wr, State.writeSlot, h]

/-- Settles O17: in BUSY all writes are refused alike, and a command is a write to slot 0. -/
theorem busyRefusesHostWrites : Obligations.BusyRefusesHostWrites := by
  intro s hp
  have hrefuse (slot : Slot) (v : Semi) : exec (.wr slot v) s = .next (s.withRegs (reject s.regs)) :=
    exec_wr_of_hostWrite (hostWrite_busy hp slot v)
  refine ⟨hrefuse, ?_, hostRead_a_of_busy hp, hostRead_r_of_busy hp, rfl, rfl, rfl, by simp [doneO, hp]⟩
  rintro i (rfl | rfl | rfl | rfl)
  · exact hrefuse .cmd 0
  · exact hrefuse .cmd 1
  · exact hrefuse .cmd 2
  · exact hrefuse .cmd 3

/-- In DONE a write to slot 0 is its command (R74). -/
theorem hostWrite_cmd_done {b : Regs} (hp : b.phase = .done) (v : Semi) : hostWrite b .cmd v = command v b :=
  (hostWrite_done hp .cmd v).trans (if_pos rfl)

/-- In DONE every `WR` of the operation table is refused, to slot 0 because its command word is illegal (R74, R110). -/
theorem hostWrite_done_of_wellFormed {b : Regs} (hp : b.phase = .done) {slot : Slot} {v : Semi}
    (hwf : (Instr.wr slot v).wellFormed = true) : hostWrite b slot v = reject b := by
  by_cases hs : slot = .cmd
  · subst hs
    have hv : legalCommand v = false := by simpa [Instr.wellFormed] using hwf
    rw [hostWrite_cmd_done hp, command_illegal hv]
  · rw [hostWrite_done hp, if_neg hs]

/-- Settles O18, command by command. -/
theorem doneRefusesAllButNopAndClear : Obligations.DoneRefusesAllButNopAndClear := by
  intro s hp
  have hidle : s.regs.phase ≠ .idle := by simp [hp]
  have hbusy : s.regs.phase ≠ .busy := by simp [hp]
  have hwrap : hostWrite s.regs .cmd 1 = reject s.regs :=
    (hostWrite_cmd_done hp 1).trans ((command_wrap s.regs).trans (if_neg hidle))
  have hunwrap : hostWrite s.regs .cmd 2 = reject s.regs :=
    (hostWrite_cmd_done hp 2).trans ((command_unwrap s.regs).trans (if_neg hidle))
  have hnop : hostWrite s.regs .cmd 0 = s.regs := (hostWrite_cmd_done hp 0).trans (command_nop s.regs)
  have hclear : hostWrite s.regs .cmd 3 = Regs.reset := (hostWrite_cmd_done hp 3).trans (command_clear s.regs)
  exact ⟨fun slot v hwf => exec_wr_of_hostWrite (hostWrite_done_of_wellFormed hp hwf), exec_wr_of_hostWrite hwrap,
    exec_wr_of_hostWrite hunwrap, exec_wr_of_hostWrite hnop, exec_wr_of_hostWrite hclear,
    hostRead_a_of_not_busy hbusy, hostRead_r_of_not_busy hbusy, rfl, rfl, rfl, by simp [doneO, hp]⟩

/-- A write to a reserved slot is refused in every phase (R75). -/
theorem hostWrite_reserved {slot : Slot} (hs : slot = .s13 ∨ slot = .s14 ∨ slot = .s15) (b : Regs) (v : Semi) :
    hostWrite b slot v = reject b := by
  unfold hostWrite
  split
  · rfl
  · obtain rfl | rfl | rfl := hs <;> rfl

/-- Settles O19. -/
theorem reservedSlotsRefuseWrites : Obligations.ReservedSlotsRefuseWrites := by
  intro s slot v hs
  refine ⟨?_, exec_wr_of_hostWrite (hostWrite_reserved hs s.regs v)⟩
  obtain rfl | rfl | rfl := hs <;> rfl

/-! The engine while the adapter is silent (R147). -/

/-- A RETIRE without a response waits (R147). -/
theorem retireStep_of_unanswered {s : State} (hc : s.crsp = none) (m : Mode) (op : Regs → Response → Regs) :
    s.retireStep m op = s := by
  simp only [State.retireStep, hc]

/-- An engine turn during the wait passes with nothing done (R147). -/
theorem stepWith_engine_of_unanswered (c : Cipher) {s : State} (hx : nextTurn s = .engine) (hp : s.regs.phase = .busy)
    (hs : s.regs.sub = .wait) (hc : s.crsp = none) : stepWith c s = .next s.advance := by
  rw [stepWith_engine c s hx, if_pos hp, hs]
  cases s.regs.mode with
  | wrap => exact congrArg _ (retireStep_of_unanswered (s := s.advance) hc .wrap retireWrap)
  | unwrap => exact congrArg _ (retireStep_of_unanswered (s := s.advance) hc .unwrap retireUnwrap)

/-- The engine waits for a response, and no turn to come brings one (R147). -/
structure State.hanging (s : State) : Prop where
  phase : s.regs.phase = .busy
  sub : s.regs.sub = .wait
  crsp : s.crsp = none
  silent : ∀ x ∈ s.turns, isSilent x = true

/-- With no turn left the engine moves, which is a silent turn: notes/assumptions/1.md. -/
theorem State.hanging.isSilent_nextTurn {s : State} (h : s.hanging) : isSilent (nextTurn s) = true := by
  have hsilent := h.silent
  unfold nextTurn
  cases hts : s.turns with
  | nil => rfl
  | cons x ts => exact hsilent x (hts ▸ List.mem_cons_self)

/-- Hanging speaks of the registers without `rej`, the port and the turns to come only. -/
theorem State.hanging.of_step {s t : State} (h : s.hanging) (hregs : t.regs = s.regs ∨ t.regs = reject s.regs)
    (hcrsp : t.crsp = s.crsp) (hturns : t.turns = s.turns.tail) : t.hanging := by
  refine ⟨?_, ?_, hcrsp.trans h.crsp, fun x hx => h.silent x (List.mem_of_mem_tail (hturns ▸ hx))⟩
  · obtain hr | hr := hregs <;> rw [hr] <;> exact h.phase
  · obtain hr | hr := hregs <;> rw [hr] <;> exact h.sub

/-- Each step of a hanging machine is a host read, a refused host write or an engine turn that waits. -/
theorem State.hanging.stepWith {s : State} (h : s.hanging) (c : Cipher) :
    ∃ t, Machine.stepWith c s = .next t ∧ t.hanging ∧ (t.regs = s.regs ∨ t.regs = reject s.regs) ∧
      (s.turns = [] → t = s) := by
  have hsilent := h.isSilent_nextTurn
  cases hx : nextTurn s with
  | host w =>
    have hne : s.turns ≠ [] := fun h0 => by simp [nextTurn, h0] at hx
    rw [stepWith_host c s w hx]
    split_ifs
    · exact ⟨_, rfl, h.of_step (.inl rfl) rfl rfl, .inl rfl, fun h0 => absurd h0 hne⟩
    · have hreject := hostWrite_busy h.phase (slotOfIdx (w.extractLsb' 64 4)) (w.extractLsb' 0 64)
      exact ⟨_, rfl, h.of_step (.inr hreject) rfl rfl, .inr hreject, fun h0 => absurd h0 hne⟩
  | engine =>
    refine ⟨_, stepWith_engine_of_unanswered c hx h.phase h.sub h.crsp, h.of_step (.inl rfl) rfl rfl, .inl rfl,
      fun h0 => ?_⟩
    rw [State.advance, h0, List.tail_nil, ← h0]
  | answer => simp [hx, isSilent] at hsilent
  | respond w => simp [hx, isSilent] at hsilent
  | rst => simp [hx, isSilent] at hsilent

/-- `rej` is sticky: a second refusal changes nothing (R39). -/
theorem reject_reject (b : Regs) : reject (reject b) = reject b := rfl

/-- A hanging machine hangs for ever, its registers unchanged but for `rej`. -/
theorem State.hanging.run {s : State} (h : s.hanging) (c : Cipher) (k : Nat) :
    ∃ t, (coreWith c).run k s = .next t ∧ t.hanging ∧ (t.regs = s.regs ∨ t.regs = reject s.regs) ∧
      (s.turns = [] → t = s) := by
  induction k generalizing s with
  | zero => exact ⟨s, rfl, h, .inl rfl, fun _ => rfl⟩
  | succ k ih =>
    obtain ⟨t, hstep, ht, hregs, hnil⟩ := h.stepWith c
    obtain ⟨u, hrun, hu, hregs', hnil'⟩ := ih ht
    refine ⟨u, (run_succ k hstep).trans hrun, hu, ?_, fun h0 => ?_⟩
    · obtain hr | hr := hregs
      · rwa [hr] at hregs'
      · rw [hr, reject_reject, or_self] at hregs'
        exact .inr hregs'
    · rw [hnil h0] at hnil'
      exact hnil' h0

/-- Settles O31, by induction on the number of steps. -/
theorem silentAdapterHangsTheEngine : Obligations.SilentAdapterHangsTheEngine := by
  intro c s k hp hs hc hsilent
  obtain ⟨t, hrun, ht, hregs, hnil⟩ := State.hanging.run ⟨hp, hs, hc, hsilent⟩ c k
  exact ⟨t, hrun, ht.phase, ht.sub, ht.crsp, hregs, hnil⟩

/-! Runs with their host reads taken out (R70, R148). -/

/-- Two machines with the same registers and the same response on the port; the last value read and the turns to come may
differ. -/
structure State.sameBlock (u t : State) : Prop where
  regs : u.regs = t.regs
  crsp : u.crsp = t.crsp

theorem State.sameBlock.refl (s : State) : s.sameBlock s := ⟨rfl, rfl⟩

theorem State.sameBlock.symm {s t : State} (h : s.sameBlock t) : t.sameBlock s := ⟨h.regs.symm, h.crsp.symm⟩

theorem State.sameBlock.trans {s t u : State} (h : s.sameBlock t) (h' : t.sameBlock u) : s.sameBlock u :=
  ⟨h.regs.trans h'.regs, h.crsp.trans h'.crsp⟩

theorem State.sameBlock.engineStep {s s' : State} (h : s'.sameBlock s) (u : Sub) (m : Mode) (op : Regs → Regs) :
    (s'.engineStep u m op).sameBlock (s.engineStep u m op) := by
  unfold State.engineStep
  rw [h.regs]
  split_ifs
  · exact ⟨rfl, h.crsp⟩
  · exact h

theorem State.sameBlock.retireStep {s s' : State} (h : s'.sameBlock s) (m : Mode) (op : Regs → Response → Regs) :
    (s'.retireStep m op).sameBlock (s.retireStep m op) := by
  unfold State.retireStep
  rw [h.regs, h.crsp]
  cases s.crsp with
  | none => exact h
  | some r =>
    dsimp only
    split_ifs
    · exact ⟨rfl, rfl⟩
    · exact h

theorem State.sameBlock.takeResponse {s s' : State} (h : s'.sameBlock s) (r : Response) :
    (s'.takeResponse r).sameBlock (s.takeResponse r) := by
  unfold State.takeResponse
  rw [h.regs, h.crsp]
  split_ifs
  · exact ⟨rfl, rfl⟩
  · exact h

theorem State.sameBlock.writeSlot {s s' : State} (h : s'.sameBlock s) (slot : Slot) (v : Semi) :
    (s'.writeSlot slot v).sameBlock (s.writeSlot slot v) :=
  ⟨congrArg (hostWrite · slot v) h.regs, h.crsp⟩

/-- Every operation goes on, and what it does to the block depends on the block only. -/
theorem State.sameBlock.exec {s s' : State} (h : s'.sameBlock s) (i : Instr) :
    ∃ t t', Machine.exec i s = .next t ∧ Machine.exec i s' = .next t' ∧ t'.sameBlock t := by
  cases i with
  | rd slot => exact ⟨_, _, rfl, rfl, h.regs, h.crsp⟩
  | wr slot v => exact ⟨_, _, rfl, rfl, h.writeSlot slot v⟩
  | nop => exact ⟨_, _, rfl, rfl, h.writeSlot .cmd 0⟩
  | wrap => exact ⟨_, _, rfl, rfl, h.writeSlot .cmd 1⟩
  | unwrap => exact ⟨_, _, rfl, rfl, h.writeSlot .cmd 2⟩
  | clear => exact ⟨_, _, rfl, rfl, h.writeSlot .cmd 3⟩
  | wIssue => exact ⟨_, _, rfl, rfl, h.engineStep .issue .wrap issue⟩
  | wRetire => exact ⟨_, _, rfl, rfl, h.retireStep .wrap retireWrap⟩
  | wFin => exact ⟨_, _, rfl, rfl, h.engineStep .fin .wrap finishWrap⟩
  | uIssue => exact ⟨_, _, rfl, rfl, h.engineStep .issue .unwrap issue⟩
  | uRetire => exact ⟨_, _, rfl, rfl, h.retireStep .unwrap retireUnwrap⟩
  | uFin => exact ⟨_, _, rfl, rfl, h.engineStep .fin .unwrap finishUnwrap⟩
  | cRespond e k b => exact ⟨_, _, rfl, rfl, h.takeResponse (responseOf e k b)⟩
  | reset => exact ⟨_, _, rfl, rfl, rfl, rfl⟩

/-- On the same turn, two machines with the same block fetch the same operation. -/
theorem State.sameBlock.fetch {s s' : State} (h : s'.sameBlock s) (hx : nextTurn s' = nextTurn s) (c : Cipher) :
    Machine.fetch c s' = Machine.fetch c s := by
  unfold Machine.fetch fetchWord
  rw [hx, h.regs]

/-- On the same turn, two machines with the same block take the same step on it. -/
theorem State.sameBlock.stepWith {s s' : State} (h : s'.sameBlock s) (hx : nextTurn s' = nextTurn s) (c : Cipher) :
    ∃ t t', Machine.stepWith c s = .next t ∧ Machine.stepWith c s' = .next t' ∧ t'.sameBlock t := by
  have hadv : s'.advance.sameBlock s.advance := ⟨h.regs, h.crsp⟩
  unfold Machine.stepWith
  rw [h.fetch hx c]
  cases Machine.fetch c s with
  | some i => exact hadv.exec i
  | none => exact ⟨_, _, rfl, rfl, hadv⟩

/-- A step uses up its turn and no other. -/
theorem turns_of_stepWith {c : Cipher} {s t : State} (h : stepWith c s = .next t) : t.turns = s.turns.tail := by
  obtain rfl | ⟨w, slot, -, -, rfl⟩ | ⟨w, slot, v, -, -, -, -, rfl⟩ | ⟨-, -, -, rfl⟩ |
    ⟨r, -, -, -, -, ⟨-, rfl⟩ | ⟨-, rfl⟩⟩ | ⟨-, -, -, ⟨-, rfl⟩ | ⟨-, rfl⟩⟩ | ⟨r, -, -, -, -, rfl⟩ | ⟨-, rfl⟩ :=
    stepWith_cases h
  all_goals rfl

/-- A step on the first of the turns given leaves the others to come. -/
theorem eq_withTurns_of_stepWith {c : Cipher} {s t : State} {x : Turn} {ts : List Turn}
    (h : stepWith c (s.withTurns (x :: ts)) = .next t) : t = t.withTurns ts := by
  rw [← show t.turns = ts from turns_of_stepWith h, State.withTurns_self]

/-- A host read leaves the block as it is (R70). -/
theorem stepWith_read (c : Cipher) (s : State) {x : Turn} (ts : List Turn) (hr : isRead x = true) :
    ∃ t : State, stepWith c (s.withTurns (x :: ts)) = .next (t.withTurns ts) ∧ t.sameBlock s := by
  cases x with
  | host w =>
    have hw : w.extractLsb' 68 1 = 0#1 := by simpa [isRead] using hr
    exact ⟨s.readSlot _, (stepWith_host c _ w rfl).trans (if_pos hw), rfl, rfl⟩
  | engine | answer | respond w | rst => exact nomatch hr

/-- The turns that are no host reads. -/
def withoutReads (ts : List Turn) : List Turn := ts.filter fun x => !isRead x

theorem withoutReads_cons_of_read {x : Turn} (hr : isRead x = true) (ts : List Turn) :
    withoutReads (x :: ts) = withoutReads ts := List.filter_cons_of_neg (by simp [hr])

theorem withoutReads_cons_of_not_read {x : Turn} (hr : ¬ isRead x = true) (ts : List Turn) :
    withoutReads (x :: ts) = x :: withoutReads ts := List.filter_cons_of_pos (by simp [hr])

/-- Two machines with the same block end with the same block, one on these turns and one on those that are no reads. -/
theorem run_withoutReads (c : Cipher) (ts : List Turn) {s s' : State} (h : s'.sameBlock s) :
    ∃ t u, (coreWith c).run ts.length (s.withTurns ts) = .next t ∧
      (coreWith c).run (withoutReads ts).length (s'.withTurns (withoutReads ts)) = .next u ∧ u.sameBlock t := by
  induction ts generalizing s s' with
  | nil => exact ⟨_, _, rfl, rfl, h.regs, h.crsp⟩
  | cons x ts ih =>
    by_cases hr : isRead x = true
    · obtain ⟨v, hv, hsame⟩ := stepWith_read c s ts hr
      obtain ⟨t, u, ht, hu, htu⟩ := ih (h.trans hsame.symm)
      rw [withoutReads_cons_of_read hr]
      exact ⟨t, u, (run_succ _ hv).trans ht, hu, htu⟩
    · rw [withoutReads_cons_of_not_read hr]
      obtain ⟨v, v', hv, hv', hsame⟩ := State.sameBlock.stepWith (s := s.withTurns (x :: ts))
        (s' := s'.withTurns (x :: withoutReads ts)) ⟨h.regs, h.crsp⟩ rfl c
      obtain ⟨t, u, ht, hu, htu⟩ := ih hsame
      rw [← eq_withTurns_of_stepWith hv] at ht
      rw [← eq_withTurns_of_stepWith hv'] at hu
      exact ⟨t, u, (run_succ _ hv).trans ht, (run_succ _ hv').trans hu, htu⟩

/-- Settles O57: the two runs start from the same block. -/
theorem hostReadsDoNotDisturb : Obligations.HostReadsDoNotDisturb := by
  intro c s ts
  obtain ⟨t, u, ht, hu, hsame⟩ := run_withoutReads c ts (State.sameBlock.refl s)
  exact ⟨t, u, ht, hu, hsame.regs.symm, hsame.crsp.symm⟩

end Sys2Proof.Machine
end

section
/-! PROOFS. The encodings and the engine's choice: an operation's word and back, every HOSTX word, illegal command words, the
operation of the engine's turn, turns and micro-operations without a step, and the key bus beyond KLEN (spec/30_encoding.md;
spec/44_cipher_port.md rule R192). -/

namespace Sys2Proof

/-! Words and operations. -/

/-- Settles O1, operation by operation. -/
theorem encodeThenDecode : Obligations.EncodeThenDecode := by
  intro i
  cases i with
  | rd slot => exact Laws.RoundTrip.rd slot
  | wr slot v => exact Laws.RoundTrip.wr slot v
  | nop => exact Laws.RoundTrip.nop
  | wrap => exact Laws.RoundTrip.wrap
  | unwrap => exact Laws.RoundTrip.unwrap
  | clear => exact Laws.RoundTrip.clear
  | wIssue => exact Laws.RoundTrip.wIssue
  | wRetire => exact Laws.RoundTrip.wRetire
  | wFin => exact Laws.RoundTrip.wFin
  | uIssue => exact Laws.RoundTrip.uIssue
  | uRetire => exact Laws.RoundTrip.uRetire
  | uFin => exact Laws.RoundTrip.uFin
  | cRespond e c b => exact Laws.RoundTrip.cRespond e c b
  | reset => exact Laws.RoundTrip.reset

/-- A command word is one of the four that R87 assigns, or it is illegal. -/
theorem commandWord_cases (v : Semi) : v = 0 ∨ v = 1 ∨ v = 2 ∨ v = 3 ∨ legalCommand v = false := by
  obtain ⟨h, -⟩ | ⟨h, -⟩ | ⟨h, -⟩ | ⟨h, -⟩ | ⟨h, -⟩ := Machine.command_cases v Machine.Regs.reset
  all_goals simp [h]

/-- A write to slot 0 is encoded again as it was: as the command it is, or as the illegal word (R96, R98). -/
theorem encodeHostx_decodeHostx_cmd (v : Semi) :
    encodeHostx (decodeHostx (hostxWord 1 .cmd v)) = some (hostxWord 1 .cmd v) := by
  obtain rfl | rfl | rfl | rfl | hv := commandWord_cases v
  · rfl
  · rfl
  · rfl
  · rfl
  · simp [decodeHostx, decodeCmd, hv, encodeHostx]

/-- Every write is encoded again bit for bit (R86, R96). -/
theorem encodeHostx_decodeHostx_write (slot : Slot) (v : Semi) :
    encodeHostx (decodeHostx (hostxWord 1 slot v)) = some (hostxWord 1 slot v) := by
  by_cases hs : slot = .cmd
  · rw [hs]
    exact encodeHostx_decodeHostx_cmd v
  · rw [decodeHostx_write slot v hs]
    rfl

/-- Settles O2: a word with the write bit set is the word of a write. -/
theorem hostxWordsAllDecode : Obligations.HostxWordsAllDecode := by
  refine fun w => ⟨decodeHostx_wellFormed w, fun hw => ?_, fun hr => if_pos hr⟩
  rw [eq_hostxWord_of_write hw]
  exact encodeHostx_decodeHostx_write _ _

end Sys2Proof

namespace Sys2Proof.Machine

/-- An illegal command word is refused in every phase (R73, R98, R110). -/
theorem hostWrite_illegal {v : Semi} (hv : legalCommand v = false) (b : Regs) : hostWrite b .cmd v = reject b := by
  unfold hostWrite
  split
  · rfl
  · exact command_illegal hv b

/-- Settles O20. -/
theorem illegalCommandWordsAreRefused : Obligations.IllegalCommandWordsAreRefused := by
  refine fun v => ⟨legalCommand_iff v, fun hv s => exec_wr_of_hostWrite (hostWrite_illegal ?_ s.regs)⟩
  exact Bool.eq_false_iff.2 fun h => hv ((legalCommand_iff v).1 h)

/-! The engine's turn (R97, R135). -/

/-- On the engine's turn the word is the control state. -/
theorem fetch_engine (c : Cipher) {s : State} (hx : nextTurn s = .engine) :
    fetch c s = (decode (.ustate (ustate s.regs))).toOption := by
  simp only [fetch, fetchWord, hx]

/-- Settles O6: what the control state decodes to, in BUSY and outside it. -/
theorem engineTurnSelectsByControlState : Obligations.EngineTurnSelectsByControlState := by
  refine fun c s hx => ⟨fun hp => ?_, fun hp => ?_⟩
  · rw [fetch_engine c hx, decode_ustate_rest _ hp]
    rfl
  · rw [fetch_engine c hx, decode_ustate_busy _ hp]
    cases s.regs.sub <;> cases s.regs.mode <;> rfl

/-- The engine has no step outside BUSY (R97). -/
theorem stepWith_engine_of_not_busy (c : Cipher) {s : State} (hx : nextTurn s = .engine) (hp : s.regs.phase ≠ .busy) :
    stepWith c s = .next s.advance := by
  rw [stepWith_engine c s hx, if_neg hp]

/-- A second response to a request is ignored (R196 (a)). -/
theorem takeResponse_of_answered {s : State} (hc : s.crsp ≠ none) (r : Response) : s.takeResponse r = s := by
  obtain ⟨-, -, h, -⟩ | h := takeResponse_cases s r
  · exact absurd h hc
  · exact h

/-- The adapter has no step without an outstanding request (R195). -/
theorem stepWith_answer_of_not_outstanding (c : Cipher) {s : State} (hx : nextTurn s = .answer)
    (ho : outstanding s.regs = false) : stepWith c s = .next s.advance := by
  simp [stepWith_answer c s hx, ho]

/-- The adapter has no step when the request is answered (R196 (a)). -/
theorem stepWith_answer_of_answered (c : Cipher) {s : State} (hx : nextTurn s = .answer) (hc : s.crsp ≠ none) :
    stepWith c s = .next s.advance := by
  rw [stepWith_answer c s hx, takeResponse_of_answered (s := s.advance) hc, ite_self]

/-- Settles O9, one lemma for each of the four turns. -/
theorem turnWithoutAStepIsIdle : Obligations.TurnWithoutAStepIsIdle := by
  rintro s (⟨hx, hp⟩ | ⟨hx, hs, hc⟩ | ⟨hx, ho⟩ | ⟨hx, hc⟩)
  · exact stepWith_engine_of_not_busy _ hx hp
  · by_cases hp : s.regs.phase = .busy
    · exact stepWith_engine_of_unanswered _ hx hp hs hc
    · exact stepWith_engine_of_not_busy _ hx hp
  · exact stepWith_answer_of_not_outstanding _ hx ho
  · exact stepWith_answer_of_answered _ hx hc

/-- A micro-operation that is not selected changes nothing (R97). -/
theorem engineStep_of_not_selected {s : State} {u : Sub} {m : Mode}
    (h : ¬ (s.regs.phase = .busy ∧ s.regs.sub = u ∧ s.regs.mode = m)) (op : Regs → Regs) :
    s.engineStep u m op = s := by
  obtain ⟨hp, hs, hm, -⟩ | hkeep := engineStep_cases s u m op
  · exact absurd ⟨hp, hs, hm⟩ h
  · exact hkeep

/-- A RETIRE that is not selected, or has no response, changes nothing (R97, R135). -/
theorem retireStep_of_not_enabled {s : State} {m : Mode}
    (h : ¬ (s.regs.phase = .busy ∧ s.regs.sub = .wait ∧ s.regs.mode = m ∧ s.crsp ≠ none))
    (op : Regs → Response → Regs) : s.retireStep m op = s := by
  obtain ⟨r, hr, hp, hs, hm, -⟩ | hkeep := retireStep_cases s m op
  · exact absurd ⟨hp, hs, hm, by simp [hr]⟩ h
  · exact hkeep

/-- Settles O36. -/
theorem unselectedMicroOpsDoNothing : Obligations.UnselectedMicroOpsDoNothing := fun _ =>
  ⟨fun h => congrArg _ (engineStep_of_not_selected h issue), fun h => congrArg _ (engineStep_of_not_selected h issue),
    fun h => congrArg _ (retireStep_of_not_enabled h retireWrap),
    fun h => congrArg _ (retireStep_of_not_enabled h retireUnwrap),
    fun h => congrArg _ (engineStep_of_not_selected h finishWrap),
    fun h => congrArg _ (engineStep_of_not_selected h finishUnwrap)⟩

/-! The key bus (R192). -/

/-- The key bus is the same for two banks that agree below the declared length (R192, D33). -/
theorem keyBus_congr {k k' : Quad} {klen : BitVec 8}
    (h : ∀ q : BitVec 2, q.toNat < klen.toNat / 8 → bankGet k q = bankGet k' q) : keyBus k klen = keyBus k' klen := by
  have hlane (q : BitVec 2) : keyLane k klen q = keyLane k' klen q := by
    unfold keyLane
    split
    · exact h q ‹_›
    · rfl
  simp only [keyBus, hlane]

/-- Settles O39: of the KEK the request holds the key bus only. -/
theorem keyBeyondItsLengthStaysInside : Obligations.KeyBeyondItsLengthStaysInside := by
  intro b k h
  have hfields : requestFields { b with K := k } = requestFields b := by
    simp only [requestFields, keyBus_congr h]
    rfl
  exact congrArg (fun q => if outstanding b then some q else none) hfields

end Sys2Proof.Machine
end

section
/-! PROOFS. One turn after another: what each turn of a running operation leaves, and a run of the machine as the turns it takes
(spec/41_schedule.md, spec/44_cipher_port.md). -/

namespace Sys2Proof.Machine

/-! The turns still to come influence no operation (notes/assumptions/1.md). -/

theorem engineStep_withTurns (s : State) (u : Sub) (m : Mode) (op : Regs → Regs) (ts : List Turn) :
    (s.withTurns ts).engineStep u m op = (s.engineStep u m op).withTurns ts := by
  unfold State.engineStep
  rw [State.withTurns_regs]
  split_ifs <;> rfl

theorem retireStep_withTurns (s : State) (m : Mode) (op : Regs → Response → Regs) (ts : List Turn) :
    (s.withTurns ts).retireStep m op = (s.retireStep m op).withTurns ts := by
  unfold State.retireStep
  rw [State.withTurns_regs, State.withTurns_crsp]
  cases s.crsp with
  | none => rfl
  | some r =>
    dsimp only
    split_ifs <;> rfl

theorem takeResponse_withTurns (s : State) (r : Response) (ts : List Turn) :
    (s.withTurns ts).takeResponse r = (s.takeResponse r).withTurns ts := by
  unfold State.takeResponse
  rw [State.withTurns_regs, State.withTurns_crsp]
  split_ifs <;> rfl

/-- Every operation does with other turns to come what it does with these. -/
theorem exec_withTurns {i : Instr} {s t : State} (h : exec i s = .next t) (ts : List Turn) :
    exec i (s.withTurns ts) = .next (t.withTurns ts) := by
  cases i <;> cases h
  case rd | wr | nop | wrap | unwrap | clear | reset => rfl
  case wIssue | wFin | uIssue | uFin => exact congrArg _ (engineStep_withTurns s _ _ _ ts)
  case wRetire | uRetire => exact congrArg _ (retireStep_withTurns s _ _ ts)
  case cRespond => exact congrArg _ (takeResponse_withTurns s _ ts)

/-- A turn is the step on that turn alone. -/
theorem take_of_stepWith {c : Cipher} {s u : State} {x : Turn} (h : stepWith c (s.withTurns [x]) = .next u) :
    s.take c x = some u :=
  take_eq_some.2 h

/-- The step on the first of several turns is the step on that turn alone. -/
theorem stepWith_cons_of_take {c : Cipher} {s u : State} {x : Turn} (h : s.take c x = some u) (ts : List Turn) :
    stepWith c (s.withTurns (x :: ts)) = .next (u.withTurns ts) := by
  have hstep : stepWith c (s.withTurns [x]) = .next u := take_eq_some.1 h
  have hfetch : fetch c (s.withTurns (x :: ts)) = fetch c (s.withTurns [x]) :=
    State.sameBlock.fetch (s := s.withTurns [x]) (s' := s.withTurns (x :: ts)) ⟨rfl, rfl⟩ rfl c
  unfold stepWith at hstep ⊢
  rw [hfetch]
  cases hf : fetch c (s.withTurns [x]) with
  | none =>
    rw [hf] at hstep
    cases hstep
    rfl
  | some i =>
    rw [hf] at hstep
    exact exec_withTurns hstep ts

/-- A run on a list of turns takes these turns, one after another. -/
theorem run_of_takeAll {c : Cipher} {s t : State} {ts : List Turn} (h : s.takeAll c ts = some t) :
    (coreWith c).run ts.length (s.withTurns ts) = .next (t.withTurns []) := by
  induction ts generalizing s with
  | nil =>
    cases h
    rfl
  | cons x ts ih =>
    obtain ⟨u, hu, ht⟩ := Option.bind_eq_some_iff.1 h
    exact (run_succ _ (stepWith_cons_of_take hu ts)).trans (ih ht)

/-- The first turn and the others. -/
theorem takeAll_cons {c : Cipher} {s u : State} {x : Turn} (h : s.take c x = some u) (ts : List Turn) :
    s.takeAll c (x :: ts) = u.takeAll c ts := by
  rw [State.takeAll, h, Option.bind_some]

/-- The turns of the first list and those of the second. -/
theorem takeAll_append_of {c : Cipher} {s u : State} {ts : List Turn} (h : s.takeAll c ts = some u) (us : List Turn) :
    s.takeAll c (ts ++ us) = u.takeAll c us := by
  rw [takeAll_append, h, Option.bind_some]

/-! The turns of a running operation. -/

/-- A write line is the host write of its slot (R71, R100). -/
theorem take_wrLine (c : Cipher) (s : State) (slot : Slot) (v : Semi) :
    s.take c (wrLine slot v) = some ((s.writeSlot slot v).withTurns []) := by
  apply take_of_stepWith
  rw [stepWith_host c _ (hostxWord 1 slot v) rfl, extract_hostx_we, extract_hostx_idx,
    extract_hostx_wdata, slotOfIdx_slotIdx, if_neg (by decide)]
  rfl

/-- A START with legal lengths is accepted (R118). -/
theorem take_startLine (c : Cipher) {s : State} {m : Mode} (hp : s.regs.phase = .idle)
    (hl : lengthError m s.regs = none) :
    s.take c (startLine m) = some ((s.withRegs (acceptStart m s.regs)).withTurns []) := by
  have hstart : start m s.regs = acceptStart m s.regs := by
    unfold start
    rw [hl]
  cases m with
  | wrap =>
    have hw : hostWrite s.regs .cmd 1 = acceptStart .wrap s.regs := by simp [hostWrite, hp, hstart]
    rw [startLine, wrapLine, take_wrLine, State.writeSlot, hw]
  | unwrap =>
    have hw : hostWrite s.regs .cmd 2 = acceptStart .unwrap s.regs := by simp [hostWrite, hp, hstart]
    rw [startLine, unwrapLine, take_wrLine, State.writeSlot, hw]

/-- ISSUE, of wrap and of unwrap (R157, R172). -/
theorem take_engine_of_issue (c : Cipher) {s : State} (hp : s.regs.phase = .busy) (hs : s.regs.sub = .issue) :
    s.take c .engine = some ((s.withRegs (issue s.regs)).withTurns []) := by
  apply take_of_stepWith
  rw [stepWith_engine c _ rfl, State.withTurns_regs, if_pos hp, hs]
  cases s.regs.mode <;> rfl

/-- The adapter answers the outstanding request (R195). -/
theorem take_answer_of_unanswered (c : Cipher) {s : State} (hp : s.regs.phase = .busy) (hs : s.regs.sub = .wait)
    (hc : s.crsp = none) :
    s.take c .answer = some ({ s with crsp := some (c (requestFields s.regs)) }.withTurns []) := by
  have ho : outstanding s.regs = true := (outstanding_iff _).2 ⟨hp, hs⟩
  apply take_of_stepWith
  rw [stepWith_answer c _ rfl, State.withTurns_regs, if_pos ho,
    takeResponse_of_unanswered (s := (s.withTurns [.answer]).advance) ho hc]
  rfl

/-- What the RETIRE of the operation's mode makes of the block (R158, R173). -/
def retire (b : Regs) (r : Response) : Regs :=
  match b.mode with
  | .wrap => retireWrap b r
  | .unwrap => retireUnwrap b r

/-- RETIRE, of wrap and of unwrap (R158, R173). -/
theorem take_engine_of_answered (c : Cipher) {s : State} {r : Response} (hp : s.regs.phase = .busy)
    (hs : s.regs.sub = .wait) (hc : s.crsp = some r) :
    s.take c .engine = some ((s.retired (retire s.regs r)).withTurns []) := by
  apply take_of_stepWith
  rw [stepWith_engine c _ rfl, State.withTurns_regs, if_pos hp, hs, retire]
  cases hm : s.regs.mode <;> simp [State.retireStep, hc, selected, hp, hs, hm] <;> rfl

/-- What the FIN of the operation's mode makes of the block (R160, R174). -/
def finish (b : Regs) : Regs :=
  match b.mode with
  | .wrap => finishWrap b
  | .unwrap => finishUnwrap b

theorem finish_wrap {b : Regs} (hm : b.mode = .wrap) : finish b = finishWrap b := by rw [finish, hm]

theorem finish_unwrap {b : Regs} (hm : b.mode = .unwrap) : finish b = finishUnwrap b := by rw [finish, hm]

/-- FIN, of wrap and of unwrap (R160, R174). -/
theorem take_engine_of_fin (c : Cipher) {s : State} (hp : s.regs.phase = .busy) (hs : s.regs.sub = .fin) :
    s.take c .engine = some ((s.withRegs (finish s.regs)).withTurns []) := by
  apply take_of_stepWith
  rw [stepWith_engine c _ rfl, State.withTurns_regs, if_pos hp, hs, finish]
  cases s.regs.mode <;> rfl

/-- What ISSUE, C.RESPOND and RETIRE together make of the block, for a cipher that never errs (R136). -/
def engineRound (f : Request → Block128) (b : Regs) : Regs := retire (issue b) (.ok (f (requestFields (issue b))))

/-- ISSUE, C.RESPOND and RETIRE, one after another (R96, R136). -/
theorem takeAll_engineRound (f : Request → Block128) {s : State} (hp : s.regs.phase = .busy) (hs : s.regs.sub = .issue)
    (hc : s.crsp = none) : s.takeAll (totalCipher f) [.engine, .answer, .engine] =
      some ((s.withRegs (engineRound f s.regs)).withTurns []) := by
  have hissue := take_engine_of_issue (totalCipher f) hp hs
  have hanswer := take_answer_of_unanswered (totalCipher f) (s := (s.withRegs (issue s.regs)).withTurns []) hp rfl hc
  have hretire := take_engine_of_answered (totalCipher f)
    (s := { s.withRegs (issue s.regs) with crsp := some (.ok (f (requestFields (issue s.regs)))) }.withTurns [])
    hp rfl rfl
  refine (takeAll_cons hissue _).trans ((takeAll_cons hanswer _).trans ((takeAll_cons hretire _).trans ?_))
  obtain ⟨b, x, d, ts⟩ := s
  obtain rfl : x = none := hc
  rfl

end Sys2Proof.Machine
end

section
/-! PROOFS. The machine computes the functions `Wrap` and `Unwrap`: a round of the engine is one pass through their loop body,
and `NextW` and `NextU` walk through the schedule in its two directions (spec/41_schedule.md, spec/42_wrap.md, spec/43_unwrap.md). -/

namespace Sys2Proof.Machine

/-! The schedule as a walk from step to step (R136, R141, R142, R150). -/

/-- The order of the steps `(j, i)`: the schedule in wrap, its reverse in unwrap (R136, R146). -/
def stepOrder : Mode → Nat → List (Nat × Nat)
  | .wrap, n => schedule n
  | .unwrap, n => (schedule n).reverse

/-- The first step (R118). -/
def firstPosition : Mode → Nat → Nat × Nat
  | .wrap, _ => (0, 0)
  | .unwrap, n => (5, n - 1)

/-- The step after `(j, i)`, none after the last one: `NextW` and `NextU` on numbers (R141, R142). -/
def nextPosition (n : Nat) : Mode → Nat × Nat → Option (Nat × Nat)
  | .wrap, (j, i) => if i < n - 1 then some (j, i + 1) else if j < 5 then some (j + 1, 0) else none
  | .unwrap, (j, i) => if 0 < i then some (j, i - 1) else if 0 < j then some (j - 1, n - 1) else none

/-- The list holds the steps from this one on, each after the one before it, and no more. -/
def follows (next : Nat × Nat → Option (Nat × Nat)) : Option (Nat × Nat) → List (Nat × Nat) → Bool
  | p, [] => p == none
  | p, q :: qs => p == some q && follows next (next q) qs

/-- The counters walk through the schedule from end to end. -/
theorem follows_stepOrder (m : Mode) {n : Nat} (hn : n = 2 ∨ n = 3 ∨ n = 4) :
    follows (nextPosition n m) (some (firstPosition m n)) (stepOrder m n) = true := by
  obtain rfl | rfl | rfl := hn <;> cases m <;> decide

theorem length_schedule (n : Nat) : (schedule n).length = 6 * n := by
  simp [schedule, Config.rounds]
  omega

theorem length_stepOrder (m : Mode) (n : Nat) : (stepOrder m n).length = 6 * n := by
  cases m <;> simp [stepOrder, length_schedule]

/-- The ranges of the counters in the schedule (R34, R35). -/
theorem range_of_mem_stepOrder {m : Mode} {n : Nat} {p : Nat × Nat} (h : p ∈ stepOrder m n) : p.1 < 6 ∧ p.2 < n := by
  have hs : p ∈ schedule n := by cases m <;> simpa [stepOrder] using h
  obtain ⟨j, hj, hp⟩ := List.mem_flatMap.1 hs
  obtain ⟨i, hi, rfl⟩ := List.mem_map.1 hp
  exact ⟨List.mem_range.1 hj, List.mem_range.1 hi⟩

/-! One round of the engine is one pass through the loop body. -/

/-- The body of the inner loop of `Wrap` or `Unwrap`, for the cipher under the KEK that the block holds (R163, R180). -/
def workStep (f : Request → Block128) (b : Regs) (n : Nat) : Mode → Work → Nat × Nat → Work
  | .wrap => wrapStep (underKek f .enc b) n
  | .unwrap => unwrapStep (underKek f .dec b) n

/-- The block with this work done, about to issue the request of step `p`. -/
def Regs.atPosition (b : Regs) (w : Work) (p : Nat × Nat) : Regs :=
  { b with A := w.A, R := w.R, sub := .issue, j := BitVec.ofNat 3 p.1, i := BitVec.ofNat 2 p.2 }

/-- The block with all its work done, about to finish. -/
def Regs.atFin (b : Regs) (w : Work) (j : BitVec 3) (i : BitVec 2) : Regs :=
  { b with A := w.A, R := w.R, sub := .fin, j := j, i := i }

/-- The block stands at this step with this work done, or at FIN where there is none. -/
def Regs.standsAt (b : Regs) (w : Work) : Option (Nat × Nat) → Regs → Prop
  | some p, b' => b' = b.atPosition w p
  | none, b' => ∃ j i, b' = b.atFin w j i

theorem ofNat_sub_one {w x : Nat} (h : 0 < x) : BitVec.ofNat w x - 1#w = BitVec.ofNat w (x - 1) := by
  obtain ⟨y, rfl⟩ := Nat.exists_eq_add_of_lt h
  simp [BitVec.ofNat_add]

/-- The counters' advance of a mode (R141, R142). -/
def nextCounters : Mode → Regs → Regs
  | .wrap => nextWrap
  | .unwrap => nextUnwrap

section
variable {b : Regs} {n : Nat} {p : Nat × Nat}

/-- The counter registers hold the step's numbers, so `zext_64(t)` is the one of the function (R137). -/
theorem counterWord_atPosition (hn : b.n.toNat = n) (hn4 : n ≤ 4) (hp : p.1 < 6 ∧ p.2 < n) (w : Work) :
    counterWord (b.atPosition w p) = stepWord n p := by
  have hj : (BitVec.ofNat 3 p.1).toNat = p.1 := Nat.mod_eq_of_lt (by omega)
  have hi : (BitVec.ofNat 2 p.2).toNat = p.2 := Nat.mod_eq_of_lt (by omega)
  simp only [counterWord, Regs.atPosition, hn, hj, hi, stepWord]

/-- A round does the loop body and moves the counters (R158, R173). -/
theorem engineRound_atPosition (f : Request → Block128) (hn : b.n.toNat = n) (hn4 : n ≤ 4) (hp : p.1 < 6 ∧ p.2 < n)
    (w : Work) : engineRound f (b.atPosition w p) =
      nextCounters b.mode { b.atPosition (workStep f b n b.mode w p) p with sub := .wait } := by
  have ht : counterWord (issue (b.atPosition w p)) = stepWord n p := counterWord_atPosition hn hn4 hp w
  have hmode : (issue (b.atPosition w p)).mode = b.mode := rfl
  unfold engineRound retire requestFields
  rw [hmode]
  cases b.mode with
  | wrap =>
    simp only [retireWrap, ht]
    rfl
  | unwrap =>
    simp only [retireUnwrap, unwrapBlock, ht]
    rfl

/-- `NextW` and `NextU` go to the next step, or to FIN after the last one (R141, R142). -/
theorem nextCounters_atPosition (hn : b.n.toNat = n) (hn4 : n ≤ 4) (hp : p.1 < 6 ∧ p.2 < n) (m : Mode) (w : Work) :
    b.standsAt w (nextPosition n m p) (nextCounters m { b.atPosition w p with sub := .wait }) := by
  obtain ⟨j, i⟩ := p
  obtain ⟨hj6, hin⟩ : j < 6 ∧ i < n := hp
  have hj : (BitVec.ofNat 3 j).toNat = j := Nat.mod_eq_of_lt (by omega)
  have hi : (BitVec.ofNat 2 i).toNat = i := Nat.mod_eq_of_lt (by omega)
  cases m with
  | wrap =>
    simp only [nextPosition, nextCounters, nextWrap, Regs.atPosition, hn, hj, hi]
    split_ifs
    · simp [Regs.standsAt, Regs.atPosition, BitVec.ofNat_add]
    · simp [Regs.standsAt, Regs.atPosition, BitVec.ofNat_add]
    · exact ⟨_, _, rfl⟩
  | unwrap =>
    simp only [nextPosition, nextCounters, nextUnwrap, Regs.atPosition, hn, hj, hi]
    split_ifs with hi0 hj0
    · simp [Regs.standsAt, Regs.atPosition, ofNat_sub_one hi0]
    · simp [Regs.standsAt, Regs.atPosition, ofNat_sub_one hj0]
    · exact ⟨_, _, rfl⟩

end

/-- The rounds of a list of steps do the loop body for each of them, and end at FIN (R136). -/
theorem takeAll_rounds (f : Request → Block128) {b b' : Regs} {n : Nat} {ps : List (Nat × Nat)}
    {p : Option (Nat × Nat)} {w : Work} (hn : b.n.toNat = n) (hn4 : n ≤ 4) (hb : b.phase = .busy)
    (hfollows : follows (nextPosition n b.mode) p ps = true) (hps : ∀ q ∈ ps, q.1 < 6 ∧ q.2 < n)
    (hat : b.standsAt w p b') (s : State) (hc : s.crsp = none) :
    ∃ j i, ((s.withRegs b').withTurns []).takeAll (totalCipher f)
        (List.replicate ps.length [.engine, .answer, .engine]).flatten =
      some ((s.withRegs (b.atFin (ps.foldl (workStep f b n b.mode) w) j i)).withTurns []) := by
  induction ps generalizing p w b' with
  | nil =>
    obtain rfl : p = none := by simpa [follows] using hfollows
    obtain ⟨j, i, rfl⟩ := hat
    exact ⟨j, i, rfl⟩
  | cons q ps ih =>
    obtain ⟨hq, hps⟩ := List.forall_mem_cons.1 hps
    obtain ⟨rfl, htail⟩ : p = some q ∧ follows (nextPosition n b.mode) (nextPosition n b.mode q) ps = true := by
      simpa [follows] using hfollows
    obtain rfl : b' = b.atPosition w q := hat
    have hround := takeAll_engineRound f (s := (s.withRegs (b.atPosition w q)).withTurns []) hb rfl hc
    rw [State.withTurns_regs, State.withRegs_regs, engineRound_atPosition f hn hn4 hq] at hround
    obtain ⟨j, i, hrest⟩ := ih htail hps (nextCounters_atPosition hn hn4 hq b.mode (workStep f b n b.mode w q))
    exact ⟨j, i, (takeAll_append_of hround _).trans hrest⟩

/-! Whole operations. -/

/-- The lengths of an operation on `n` semiblocks are legal (R113 to R116). -/
theorem lengthError_eq_none {m : Mode} {b : Regs} {n : Nat} (hn : n = 2 ∨ n = 3 ∨ n = 4) (hk : b.KLEN.toNat = 8 * n)
    (hwrap : m = .wrap → b.DLEN.toNat = 8 * n) (hunwrap : m = .unwrap → b.DLEN.toNat = 8 * n + 8) :
    lengthError m b = none := by
  have hlegal : kekLegal b.KLEN = true := by
    have hcases : b.KLEN = 16 ∨ b.KLEN = 24 ∨ b.KLEN = 32 := by
      simp only [← BitVec.toNat_inj]
      simp
      omega
    simpa [kekLegal, or_assoc] using hcases
  unfold lengthError
  rw [if_pos hlegal]
  cases m with
  | wrap => exact if_pos (BitVec.eq_of_toNat_eq ((hwrap rfl).trans hk.symm))
  | unwrap => exact if_pos (by rw [hunwrap rfl, hk])

/-- The semiblock count of an operation on `n` semiblocks (R94). -/
theorem semiblockCount_eq {m : Mode} {d : BitVec 8} {n : Nat} (hwrap : m = .wrap → d.toNat = 8 * n)
    (hunwrap : m = .unwrap → d.toNat = 8 * n + 8) : semiblockCount m d = BitVec.ofNat 3 n := by
  cases m with
  | wrap =>
    have hdiv : d.toNat / 8 = n := by rw [hwrap rfl, Nat.mul_div_cancel_left n (by decide)]
    rw [semiblockCount, hdiv]
  | unwrap =>
    have hdiv : (d.toNat - 8) / 8 = n := by
      rw [hunwrap rfl, Nat.add_sub_cancel, Nat.mul_div_cancel_left n (by decide)]
    rw [semiblockCount, hdiv]

/-- An accepted START stands at the first step (R118). -/
theorem acceptStart_standsAt {m : Mode} {b : Regs} {n : Nat} (hn : (acceptStart m b).n.toNat = n) :
    (acceptStart m b).standsAt { A := (acceptStart m b).A, R := b.R } (some (firstPosition m n)) (acceptStart m b) := by
  subst hn
  cases m <;> rfl

theorem operationTurns_eq (m : Mode) (n : Nat) : operationTurns n =
    (List.replicate (stepOrder m n).length [.engine, .answer, .engine]).flatten ++ [.engine] := by
  rw [length_stepOrder, operationTurns]

theorem length_operationTurns (n : Nat) : (operationTurns n).length = 18 * n + 1 := by
  simp [operationTurns]
  omega

/-- The data at the end of the loops of an operation started on this block (R163, R180). -/
def operationWork (f : Request → Block128) (m : Mode) (b : Regs) (n : Nat) : Work :=
  (stepOrder m n).foldl (workStep f b n m) { A := (acceptStart m b).A, R := b.R }

theorem operationWork_wrap (f : Request → Block128) (b : Regs) (n : Nat) :
    operationWork f .wrap b n = wrapTransform (underKek f .enc b) n b.R := rfl

/-- `Unwrap` is its loops and the comparison with the ICV (R180). -/
theorem unwrapTransform_eq (f : Request → Block128) (b : Regs) (n : Nat) :
    unwrapTransform (underKek f .dec b) n { A := b.A, R := b.R } =
      if (operationWork f .unwrap b n).A = Config.icv then some (operationWork f .unwrap b n).R else none := rfl

/-- START latches the KEK, so the loop body is that of the block it found (R82, R118). -/
theorem workStep_acceptStart (f : Request → Block128) (m : Mode) (b : Regs) (n : Nat) :
    workStep f (acceptStart m b) n m = workStep f b n m := by
  cases m <;> rfl

/-- From IDLE with legal lengths, START, the rounds and FIN finish the block whose work is done (R96, R118, R136). -/
theorem takeAll_operation (f : Request → Block128) {s : State} {m : Mode} {n : Nat} (hn : n = 2 ∨ n = 3 ∨ n = 4)
    (hp : s.regs.phase = .idle) (hl : lengthError m s.regs = none)
    (hcount : semiblockCount m s.regs.DLEN = BitVec.ofNat 3 n) (hc : s.crsp = none) :
    ∃ j i, s.takeAll (totalCipher f) (startLine m :: operationTurns n) =
      some ((s.withRegs (finish ((acceptStart m s.regs).atFin (operationWork f m s.regs n) j i))).withTurns []) := by
  have hn4 : n ≤ 4 := by omega
  have hn3 : (acceptStart m s.regs).n.toNat = n := by
    rw [show (acceptStart m s.regs).n = BitVec.ofNat 3 n from hcount]
    exact Nat.mod_eq_of_lt (by omega)
  obtain ⟨j, i, hrounds⟩ := takeAll_rounds f (b := acceptStart m s.regs) hn3 hn4 rfl (follows_stepOrder m hn)
    (fun _ => range_of_mem_stepOrder) (acceptStart_standsAt hn3) s hc
  rw [show (acceptStart m s.regs).mode = m from rfl, workStep_acceptStart] at hrounds
  have hfin := take_engine_of_fin (totalCipher f)
    (s := (s.withRegs ((acceptStart m s.regs).atFin (operationWork f m s.regs n) j i)).withTurns []) rfl rfl
  refine ⟨j, i, (takeAll_cons (take_startLine _ hp hl) _).trans ?_⟩
  rw [operationTurns_eq m n]
  exact (takeAll_append_of hrounds _).trans (takeAll_cons hfin [])

/-- The same as a run of the machine. -/
theorem run_operation (f : Request → Block128) {s : State} {m : Mode} {n : Nat} (hn : n = 2 ∨ n = 3 ∨ n = 4)
    (hp : s.regs.phase = .idle) (hk : s.regs.KLEN.toNat = 8 * n) (hwrap : m = .wrap → s.regs.DLEN.toNat = 8 * n)
    (hunwrap : m = .unwrap → s.regs.DLEN.toNat = 8 * n + 8) (hc : s.crsp = none) :
    ∃ j i, (coreWith (totalCipher f)).run (18 * n + 2) (s.withTurns (startLine m :: operationTurns n)) =
      .next ((s.withRegs (finish ((acceptStart m s.regs).atFin (operationWork f m s.regs n) j i))).withTurns []) := by
  obtain ⟨j, i, h⟩ := takeAll_operation f hn hp (lengthError_eq_none hn hk hwrap hunwrap)
    (semiblockCount_eq hwrap hunwrap) hc
  have hlen : (startLine m :: operationTurns n).length = 18 * n + 2 := by rw [List.length_cons, length_operationTurns]
  have hrun := run_of_takeAll h
  rw [hlen] at hrun
  exact ⟨j, i, hrun⟩

/-- Passes through the loop body of `Wrap` write elements below `n` only (R162). -/
theorem bankGet_foldl_wrapStep (enc : Block128 → Block128) {n : Nat} {ps : List (Nat × Nat)} (hps : ∀ p ∈ ps, p.2 < n)
    {q : BitVec 2} (hq : n ≤ q.toNat) (w : Work) : bankGet (ps.foldl (wrapStep enc n) w).R q = bankGet w.R q := by
  induction ps generalizing w with
  | nil => rfl
  | cons p ps ih =>
    obtain ⟨hp, hps⟩ := List.forall_mem_cons.1 hps
    have hne : q ≠ BitVec.ofNat 2 p.2 := by
      rintro rfl
      exact absurd hq (not_le.2 ((Nat.mod_le _ _).trans_lt hp))
    exact (ih hps _).trans (bankGet_bankSet_ne _ _ hne)

/-- `Wrap` leaves `R[n..3]` as they were (R162). -/
theorem bankGet_wrapTransform (enc : Block128 → Block128) {n : Nat} (r : Quad) {q : BitVec 2}
    (hq : n ≤ q.toNat) : bankGet (wrapTransform enc n r).R q = bankGet r q :=
  bankGet_foldl_wrapStep enc (fun _ hp => (range_of_mem_stepOrder (m := .wrap) hp).2) hq _

/-- Settles O54: the machine's run is the operation of `run_operation`, and W.FIN leaves its data as they are. -/
theorem wrapOperationComputesWrap : Obligations.WrapOperationComputesWrap := by
  intro f s n hn hp hk hd hc w
  have hcount := semiblockCount_eq (m := .wrap) (d := s.regs.DLEN) (fun _ => hd) nofun
  have hrlen : s.regs.DLEN + 8 = BitVec.ofNat 8 (8 * n + 8) := by
    rw [BitVec.ofNat_add, ← hd, BitVec.ofNat_toNat, BitVec.setWidth_eq]
    rfl
  obtain ⟨j, i, hrun⟩ := run_operation f (m := .wrap) hn hp hk (fun _ => hd) nofun hc
  rw [finish_wrap rfl, finishWrap_eq, operationWork_wrap] at hrun
  refine ⟨?_, fun q hq => bankGet_wrapTransform _ _ hq⟩
  rw [← hcount, ← hrlen]
  exact hrun

/-- Settles O55: the machine's run is the operation of `run_operation`, and U.FIN makes the comparison of `Unwrap`. -/
theorem unwrapOperationComputesUnwrap : Obligations.UnwrapOperationComputesUnwrap := by
  intro f s n hn hp hk hd hc
  have hcount := semiblockCount_eq (m := .unwrap) (d := s.regs.DLEN) nofun fun _ => hd
  have hrlen : s.regs.DLEN - 8 = BitVec.ofNat 8 (8 * n) := by
    have hd8 : s.regs.DLEN = BitVec.ofNat 8 (8 * n) + BitVec.ofNat 8 8 := by
      rw [← BitVec.ofNat_add, ← hd, BitVec.ofNat_toNat, BitVec.setWidth_eq]
    rw [hd8]
    exact BitVec.add_sub_cancel _ _
  obtain ⟨j, i, hrun⟩ := run_operation f (m := .unwrap) hn hp hk nofun (fun _ => hd) hc
  rw [finish_unwrap rfl] at hrun
  obtain ⟨hA, hfin⟩ | ⟨hA, hfin⟩ :=
    finishUnwrap_cases ((acceptStart .unwrap s.regs).atFin (operationWork f .unwrap s.regs n) j i)
  · have hicv : (operationWork f .unwrap s.regs n).A = Config.icv := hA
    rw [hfin] at hrun
    rw [unwrapTransform_eq, if_pos hicv, ← hicv, ← hcount, ← hrlen]
    exact hrun
  · have hicv : (operationWork f .unwrap s.regs n).A ≠ Config.icv := hA
    rw [hfin] at hrun
    rw [unwrapTransform_eq, if_neg hicv, ← hcount]
    exact hrun

end Sys2Proof.Machine
end

section
/-! PROOFS. A fair operation ends: how far it is from its end as a stage, what a quiet turn makes of the stage, and the turns and
rounds that are left at most (spec/41_schedule.md; rules R102, R147, R249, R250). -/

namespace Sys2Proof.Machine

/-! Stages of an operation. -/

/-- Where an operation stands, with the number of schedule steps after the current one. -/
inductive Stage where
  /-- the request is to be issued -/
  | issue (k : Nat)
  /-- the request is outstanding and unanswered -/
  | wait (k : Nat)
  /-- the response is on the port -/
  | answered (k : Nat)
  /-- all steps are done -/
  | fin
  /-- the operation has ended -/
  | ended

/-- What a quiet turn can make of the stage. -/
inductive StageStep : Turn → Stage → Stage → Prop where
  /-- a host transaction, which BUSY refuses (R73) -/
  | host (w : BitVec 69) (g : Stage) : StageStep (.host w) g g
  /-- ISSUE -/
  | issue (k : Nat) : StageStep .engine (.issue k) (.wait k)
  /-- ISSUE with a response on the port already, which no run from reset meets -/
  | issueAnswered (k : Nat) : StageStep .engine (.issue k) (.answered k)
  /-- the engine waits (R147) -/
  | wait (k : Nat) : StageStep .engine (.wait k) (.wait k)
  /-- a RETIRE of a step that is not the last -/
  | retire (k : Nat) : StageStep .engine (.answered (k + 1)) (.issue k)
  /-- the RETIRE of the last step -/
  | retireLast : StageStep .engine (.answered 0) .fin
  /-- a RETIRE that consumes an error (R198) -/
  | fail (k : Nat) : StageStep .engine (.answered k) .ended
  /-- FIN -/
  | finish : StageStep .engine .fin .ended
  /-- the engine in DONE -/
  | ended : StageStep .engine .ended .ended
  /-- C.RESPOND -/
  | answer (k : Nat) : StageStep .answer (.wait k) (.answered k)
  /-- the adapter with nothing to answer -/
  | answerIdle {g : Stage} (hg : ∀ k, g ≠ .wait k) : StageStep .answer g g

/-- The steps of engine and adapter that are left at most: three for each step of the schedule, and FIN. -/
def Stage.turnsLeft : Stage → Nat
  | .issue k => 3 * k + 4
  | .wait k => 3 * k + 3
  | .answered k => 3 * k + 2
  | .fin => 1
  | .ended => 0

/-- The rounds of strict alternation, the engine first, that are left at most: one for each micro-operation, and one more where
the round begins with the engine waiting. -/
def Stage.roundsLeft : Stage → Nat
  | .issue k => 2 * k + 3
  | .wait k => 2 * k + 3
  | .answered k => 2 * k + 2
  | .fin => 1
  | .ended => 0

/-- The agent whose step brings the operation on. -/
def Stage.mover : Stage → Turn
  | .wait _ => .answer
  | .issue _ | .answered _ | .fin | .ended => .engine

theorem Stage.eq_ended_of_turnsLeft {g : Stage} (h : g.turnsLeft = 0) : g = .ended := by
  cases g with
  | ended => rfl
  | issue k | wait k | answered k | fin => simp [Stage.turnsLeft] at h

theorem Stage.eq_ended_of_roundsLeft {g : Stage} (h : g.roundsLeft = 0) : g = .ended := by
  cases g with
  | ended => rfl
  | issue k | wait k | answered k | fin => simp [Stage.roundsLeft] at h

/-- A turn brings the operation on, or it is another agent's than the one it waits for and leaves the stage. -/
theorem StageStep.turnsLeft_cases {x : Turn} {g g' : Stage} (h : StageStep x g g') :
    g'.turnsLeft ≤ g.turnsLeft - 1 ∨ (g' = g ∧ x ≠ g.mover) := by
  cases h with
  | host w => exact .inr ⟨rfl, by cases g <;> nofun⟩
  | wait k => exact .inr ⟨rfl, nofun⟩
  | answerIdle hg =>
    refine .inr ⟨rfl, ?_⟩
    cases g with
    | wait k => exact absurd rfl (hg k)
    | issue k | answered k | fin | ended => nofun
  | issue | issueAnswered | retire | retireLast | fail | finish | ended | answer =>
    exact .inl (by simp only [Stage.turnsLeft]; omega)

/-- The stages that a list of turns goes through, from the first to the last. -/
def StagePath : List Turn → Stage → Stage → Prop
  | [], g, g' => g' = g
  | x :: xs, g, g' => ∃ m, StageStep x g m ∧ StagePath xs m g'

theorem StagePath.append {xs ys : List Turn} {g g' : Stage} (h : StagePath (xs ++ ys) g g') :
    ∃ m, StagePath xs g m ∧ StagePath ys m g' := by
  induction xs generalizing g with
  | nil => exact ⟨g, rfl, h⟩
  | cons x xs ih =>
    obtain ⟨m, hstep, hrest⟩ := h
    obtain ⟨m', hxs, hys⟩ := ih hrest
    exact ⟨m', ⟨m, hstep, hxs⟩, hys⟩

/-- No quiet turn brings an operation back. -/
theorem StagePath.turnsLeft_le {xs : List Turn} {g g' : Stage} (h : StagePath xs g g') :
    g'.turnsLeft ≤ g.turnsLeft := by
  induction xs generalizing g with
  | nil => exact le_of_eq (congrArg _ h)
  | cons x xs ih =>
    obtain ⟨m, hstep, hrest⟩ := h
    obtain hlt | ⟨rfl, -⟩ := hstep.turnsLeft_cases
    · exact (ih hrest).trans (hlt.trans (Nat.sub_le _ 1))
    · exact ih hrest

/-- Turns among which is one of the agent that the operation waits for bring it on. -/
theorem StagePath.turnsLeft_lt {xs : List Turn} {g g' : Stage} (h : StagePath xs g g') (hmover : g.mover ∈ xs) :
    g'.turnsLeft ≤ g.turnsLeft - 1 := by
  induction xs generalizing g with
  | nil => exact nomatch hmover
  | cons x xs ih =>
    obtain ⟨m, hstep, hrest⟩ := h
    obtain hlt | ⟨rfl, hne⟩ := hstep.turnsLeft_cases
    · exact hrest.turnsLeft_le.trans hlt
    · exact ih hrest ((List.mem_cons.1 hmover).resolve_left (Ne.symm hne))

/-- A fair round brings the operation on (R249). -/
theorem StagePath.turnsLeft_of_fairRound {r : List Turn} {g g' : Stage} (hr : fairRound r) (h : StagePath r g g') :
    g'.turnsLeft ≤ g.turnsLeft - 1 := by
  obtain ⟨hengine, hanswer, -⟩ := hr
  refine h.turnsLeft_lt ?_
  cases g with
  | wait k => exact hanswer
  | issue k | answered k | fin | ended => exact hengine

/-- An engine turn and an adapter turn bring the operation on by a micro-operation, but where the engine begins by waiting. -/
theorem StagePath.roundsLeft_of_alternation {g g' : Stage} (h : StagePath [.engine, .answer] g g') :
    g'.roundsLeft ≤ g.roundsLeft - 1 := by
  obtain ⟨m, hengine, m', hanswer, rfl⟩ := h
  cases hanswer with
  | answer k => cases hengine <;> simp [Stage.roundsLeft]
  | answerIdle hg =>
    cases hengine with
    | issue k | wait k => exact absurd rfl (hg k)
    | issueAnswered | retire | retireLast | fail | finish | ended => simp only [Stage.roundsLeft]; omega

/-- Rounds that each bring the operation on by one bring it on by their number. -/
theorem StagePath.flatten {left : Stage → Nat} {rounds : List (List Turn)}
    (hround : ∀ r ∈ rounds, ∀ g g', StagePath r g g' → left g' ≤ left g - 1) {g g' : Stage}
    (h : StagePath rounds.flatten g g') : left g' ≤ left g - rounds.length := by
  induction rounds generalizing g with
  | nil => exact le_of_eq (congrArg _ h)
  | cons r rounds ih =>
    obtain ⟨hr, hrounds⟩ := List.forall_mem_cons.1 hround
    obtain ⟨m, hfirst, hrest⟩ := StagePath.append h
    have hm := hr _ _ hfirst
    have hg' := ih hrounds hrest
    rw [List.length_cons]
    omega

/-! The stage of a machine. -/

/-- The schedule steps after the current one (R136, R145). -/
def stepsAfter (b : Regs) : Nat :=
  match b.mode with
  | .wrap => 6 * b.n.toNat - stepNumber b
  | .unwrap => stepNumber b - 1

/-- The stage of the operation of this block with this response on its port. -/
def stageOf (b : Regs) (r : Option Response) : Stage :=
  match b.phase, b.sub, r with
  | .busy, .issue, _ => .issue (stepsAfter b)
  | .busy, .wait, none => .wait (stepsAfter b)
  | .busy, .wait, some _ => .answered (stepsAfter b)
  | .busy, .fin, _ => .fin
  | .idle, _, _ | .done, _, _ => .ended

section
variable {b : Regs}

theorem stageOf_issue (hp : b.phase = .busy) (hs : b.sub = .issue) (r : Option Response) :
    stageOf b r = .issue (stepsAfter b) := by
  unfold stageOf
  rw [hp, hs]

theorem stageOf_unanswered (hp : b.phase = .busy) (hs : b.sub = .wait) : stageOf b none = .wait (stepsAfter b) := by
  unfold stageOf
  rw [hp, hs]

theorem stageOf_answered (hp : b.phase = .busy) (hs : b.sub = .wait) (r : Response) :
    stageOf b (some r) = .answered (stepsAfter b) := by
  unfold stageOf
  rw [hp, hs]

theorem stageOf_fin (hp : b.phase = .busy) (hs : b.sub = .fin) (r : Option Response) : stageOf b r = .fin := by
  unfold stageOf
  rw [hp, hs]

theorem stageOf_done (hp : b.phase = .done) (r : Option Response) : stageOf b r = .ended := by
  unfold stageOf
  rw [hp]

theorem stageOf_reject (b : Regs) (r : Option Response) : stageOf (reject b) r = stageOf b r := rfl

/-- In BUSY the operation has not ended. -/
theorem stageOf_ne_ended (hp : b.phase = .busy) (r : Option Response) : stageOf b r ≠ .ended := by
  cases hs : b.sub with
  | issue => simp [stageOf_issue hp hs]
  | wait => cases r <;> simp [stageOf_unanswered hp hs, stageOf_answered hp hs]
  | fin => simp [stageOf_fin hp hs]

/-- In BUSY the current step is one of `6n` (R37 (b), R137). -/
theorem stepsAfter_lt (hp : b.phase = .busy) (hr : b.busyRanges) : stepsAfter b + 1 ≤ 6 * b.n.toNat := by
  have hle : stepNumber b ≤ 6 * b.n.toNat := (stepCounter_le_of_busyRanges hr hp).1
  have hpos : 1 ≤ stepNumber b := Nat.le_add_left 1 _
  unfold stepsAfter
  cases b.mode <;> dsimp only <;> omega

/-- The steps and rounds left in BUSY: `18n + 1` and `12n + 1` at most. -/
theorem left_le (hp : b.phase = .busy) (hr : b.busyRanges) (r : Option Response) :
    (stageOf b r).turnsLeft ≤ 18 * b.n.toNat + 1 ∧ (stageOf b r).roundsLeft ≤ 12 * b.n.toNat + 1 := by
  have hlt := stepsAfter_lt hp hr
  cases hs : b.sub with
  | issue =>
    simp only [stageOf_issue hp hs, Stage.turnsLeft, Stage.roundsLeft]
    omega
  | wait =>
    cases r with
    | none =>
      simp only [stageOf_unanswered hp hs, Stage.turnsLeft, Stage.roundsLeft]
      omega
    | some r =>
      simp only [stageOf_answered hp hs, Stage.turnsLeft, Stage.roundsLeft]
      omega
  | fin =>
    simp only [stageOf_fin hp hs, Stage.turnsLeft, Stage.roundsLeft]
    omega

theorem stepsAfter_wrap (hm : b.mode = .wrap) : stepsAfter b = 6 * b.n.toNat - stepNumber b := by rw [stepsAfter, hm]

theorem stepsAfter_unwrap (hm : b.mode = .unwrap) : stepsAfter b = stepNumber b - 1 := by rw [stepsAfter, hm]

/-- A RETIRE of a block goes to FIN after the last step, and to ISSUE with one step fewer after any other (R141, R142). -/
theorem retire_ok_cases (B : Block128) (hp : b.phase = .busy) (hr : b.busyRanges) :
    (retire b (.ok B)).phase = .busy ∧
    ((stepsAfter b = 0 ∧ (retire b (.ok B)).sub = .fin) ∨
      (stepsAfter b = stepsAfter (retire b (.ok B)) + 1 ∧ (retire b (.ok B)).sub = .issue)) := by
  have hle : stepNumber b ≤ 6 * b.n.toNat := (stepCounter_le_of_busyRanges hr hp).1
  have hpos : 1 ≤ stepNumber b := Nat.le_add_left 1 _
  cases hm : b.mode with
  | wrap =>
    obtain ⟨u, j, i, hframe⟩ := retireWrap_ok_frame b B
    obtain ⟨hlt, heq⟩ : (stepNumber b < 6 * b.n.toNat →
        stepNumber (retireWrap b (.ok B)) = stepNumber b + 1 ∧ (retireWrap b (.ok B)).sub = .issue) ∧
        (stepNumber b = 6 * b.n.toNat → (retireWrap b (.ok B)).sub = .fin) :=
      nextWrap_stepNumber (b := { b with A := msb64 B ^^^ counterWord b, R := bankSet b.R b.i (lsb64 B) }) hp hr
    have hmode : (retireWrap b (.ok B)).mode = .wrap := by rw [hframe]; exact hm
    have hn : (retireWrap b (.ok B)).n = b.n := by rw [hframe]
    rw [retire, hm, stepsAfter_wrap hm, stepsAfter_wrap hmode, hn]
    refine ⟨by rw [hframe]; exact hp, ?_⟩
    obtain hlast | hmore := Nat.eq_or_lt_of_le hle
    · exact .inl ⟨by omega, heq hlast⟩
    · obtain ⟨ht, hsub⟩ := hlt hmore
      exact .inr ⟨by omega, hsub⟩
  | unwrap =>
    obtain ⟨u, j, i, hframe⟩ := retireUnwrap_ok_frame b B
    obtain ⟨hlt, heq⟩ : (1 < stepNumber b →
        stepNumber (retireUnwrap b (.ok B)) + 1 = stepNumber b ∧ (retireUnwrap b (.ok B)).sub = .issue) ∧
        (stepNumber b = 1 → (retireUnwrap b (.ok B)).sub = .fin) :=
      nextUnwrap_stepNumber (b := { b with A := msb64 B, R := bankSet b.R b.i (lsb64 B) }) hp hr
    have hmode : (retireUnwrap b (.ok B)).mode = .unwrap := by rw [hframe]; exact hm
    have hpos' : 1 ≤ stepNumber (retireUnwrap b (.ok B)) := Nat.le_add_left 1 _
    rw [retire, hm, stepsAfter_unwrap hm, stepsAfter_unwrap hmode]
    refine ⟨by rw [hframe]; exact hp, ?_⟩
    obtain hlast | hmore := Nat.eq_or_lt_of_le hpos
    · exact .inl ⟨by omega, heq hlast.symm⟩
    · obtain ⟨ht, hsub⟩ := hlt hmore
      exact .inr ⟨by omega, hsub⟩

/-- A RETIRE of an error ends the operation (R198). -/
theorem retire_err_phase (b : Regs) (code : BitVec 16) : (retire b (.err code)).phase = .done := by
  unfold retire
  cases b.mode <;> rfl

/-- FIN ends the operation (R160, R174). -/
theorem finish_phase (b : Regs) : (finish b).phase = .done := by
  unfold finish
  cases b.mode with
  | wrap => rfl
  | unwrap =>
    obtain ⟨a, r, o, l, -, h⟩ := finishUnwrap_frame b
    exact congrArg Regs.phase h

end

/-- An operation runs or has ended, and the sequencing invariants hold. -/
structure State.started (s : State) : Prop where
  inv : s.regs.seqInv
  phase : s.regs.phase ≠ .idle

/-- The stage of the machine's operation. -/
def State.stage (s : State) : Stage := stageOf s.regs s.crsp

theorem State.started.done_of_ended {s : State} (h : s.started) (hended : s.stage = .ended) : s.regs.phase = .done :=
  eq_done_of_ne h.phase fun hp => stageOf_ne_ended hp s.crsp hended

/-- Every step keeps the sequencing invariants. -/
theorem seqInv_of_take {c : Cipher} {s u : State} {x : Turn} (hi : s.regs.seqInv) (h : s.take c x = some u) :
    u.regs.seqInv :=
  (blockStep_of_stepWith (take_eq_some.1 h)).keeps_seqInv hi

/-- A host transaction but CLEAR does nothing to a block outside IDLE, or sets `rej` (R73, R74). -/
theorem take_host (c : Cipher) {s : State} {w : BitVec 69} (hp : s.regs.phase ≠ .idle)
    (hw : isQuiet (.host w) = true) :
    ∃ u, s.take c (.host w) = some u ∧ (u.regs = s.regs ∨ u.regs = reject s.regs) ∧ u.crsp = s.crsp := by
  have hstep := stepWith_host c (s.withTurns [.host w]) w rfl
  by_cases hr : w.extractLsb' 68 1 = 0#1
  · rw [if_pos hr] at hstep
    exact ⟨_, take_of_stepWith hstep, .inl rfl, rfl⟩
  · rw [if_neg hr] at hstep
    refine ⟨_, take_of_stepWith hstep, ?_, rfl⟩
    obtain h | ⟨-, -, -, h⟩ | ⟨hi, -⟩ | ⟨hi, -⟩ | ⟨-, hs, hv, -⟩ | ⟨hi, -⟩ :=
      hostWrite_cases s.regs (slotOfIdx (w.extractLsb' 64 4)) (w.extractLsb' 0 64)
    · exact .inr h
    · exact .inl h
    · exact absurd hi hp
    · exact absurd hi hp
    · have hclear := eq_hostxWord_of_write ((BitVec.eq_zero_or_eq_one _).resolve_left hr)
      rw [hs, hv] at hclear
      simp [isQuiet, hclear] at hw
    · exact absurd hi hp

/-- ISSUE goes to the wait, or to the RETIRE where a response is on the port already. -/
theorem stageStep_issue {b : Regs} (hp : b.phase = .busy) (hs : b.sub = .issue) (r : Option Response) :
    StageStep .engine (stageOf b r) (stageOf (issue b) r) := by
  rw [stageOf_issue hp hs]
  cases r with
  | none =>
    rw [stageOf_unanswered (b := issue b) hp rfl]
    exact .issue _
  | some r =>
    rw [stageOf_answered (b := issue b) hp rfl]
    exact .issueAnswered _

/-- A RETIRE goes to the next step, to FIN or to the end. -/
theorem stageStep_retire {b : Regs} (hp : b.phase = .busy) (hs : b.sub = .wait) (hr : b.busyRanges) (r : Response) :
    (retire b r).phase ≠ .idle ∧ StageStep .engine (stageOf b (some r)) (stageOf (retire b r) none) := by
  rw [stageOf_answered hp hs]
  cases r with
  | ok B =>
    obtain ⟨hp', ⟨h0, hs'⟩ | ⟨hk, hs'⟩⟩ := retire_ok_cases B hp hr
    · rw [h0, stageOf_fin hp' hs']
      exact ⟨by simp [hp'], .retireLast⟩
    · rw [hk, stageOf_issue hp' hs']
      exact ⟨by simp [hp'], .retire _⟩
  | err code =>
    have hp' := retire_err_phase b code
    rw [stageOf_done hp']
    exact ⟨by simp [hp'], .fail _⟩

/-- FIN ends the operation. -/
theorem stageStep_finish {b : Regs} (hp : b.phase = .busy) (hs : b.sub = .fin) (r : Option Response) :
    StageStep .engine (stageOf b r) (stageOf (finish b) r) := by
  rw [stageOf_fin hp hs, stageOf_done (finish_phase b)]
  exact .finish

/-- The engine's turn, stage by stage. -/
theorem take_engine_stage (c : Cipher) {s : State} (hs : s.started) :
    ∃ u, s.take c .engine = some u ∧ u.regs.phase ≠ .idle ∧ StageStep .engine s.stage u.stage := by
  by_cases hp : s.regs.phase = .busy
  · obtain ⟨hr, -, -⟩ := (seqInv_iff_of_busy hp).1 hs.inv
    cases hsub : s.regs.sub with
    | issue => exact ⟨_, take_engine_of_issue c hp hsub, hs.phase, stageStep_issue hp hsub s.crsp⟩
    | wait =>
      cases hc : s.crsp with
      | none =>
        have hwait := stepWith_engine_of_unanswered c (s := s.withTurns [.engine]) rfl hp hsub hc
        refine ⟨_, take_of_stepWith hwait, hs.phase, ?_⟩
        have hstage : s.stage = .wait (stepsAfter s.regs) := by rw [State.stage, hc, stageOf_unanswered hp hsub]
        exact hstage ▸ .wait _
      | some r =>
        obtain ⟨hp', hstep⟩ := stageStep_retire hp hsub hr r
        refine ⟨_, take_engine_of_answered c hp hsub hc, hp', ?_⟩
        rw [State.stage, hc]
        exact hstep
    | fin => exact ⟨_, take_engine_of_fin c hp hsub, by simp [finish_phase], stageStep_finish hp hsub s.crsp⟩
  · have hrest := stepWith_engine_of_not_busy c (s := s.withTurns [.engine]) rfl hp
    have hstage : s.stage = .ended := stageOf_done (eq_done_of_ne hs.phase hp) s.crsp
    exact ⟨_, take_of_stepWith hrest, hs.phase, hstage ▸ .ended⟩

/-- C.RESPOND goes from the wait to the RETIRE. -/
theorem stageStep_answer {b : Regs} (hp : b.phase = .busy) (hs : b.sub = .wait) (r : Response) :
    StageStep .answer (stageOf b none) (stageOf b (some r)) := by
  rw [stageOf_unanswered hp hs, stageOf_answered hp hs]
  exact .answer _

/-- With nothing to answer, the stage is none that waits for an answer. -/
theorem stageOf_ne_wait {b : Regs} {r : Option Response} (h : outstanding b = false ∨ r ≠ none) (k : Nat) :
    stageOf b r ≠ .wait k := by
  intro hwait
  cases hp : b.phase with
  | idle | done => simp [stageOf, hp] at hwait
  | busy =>
    cases hs : b.sub with
    | issue => simp [stageOf_issue hp hs] at hwait
    | fin => simp [stageOf_fin hp hs] at hwait
    | wait =>
      cases r with
      | some r => simp [stageOf_answered hp hs] at hwait
      | none =>
        obtain ho | hc := h
        · simp [outstanding, hp, hs] at ho
        · exact hc rfl

/-- The adapter's turn, stage by stage. -/
theorem take_answer_stage (c : Cipher) {s : State} (hs : s.started) :
    ∃ u, s.take c .answer = some u ∧ u.regs.phase ≠ .idle ∧ StageStep .answer s.stage u.stage := by
  by_cases h : outstanding s.regs = false ∨ s.crsp ≠ none
  · have hidle : stepWith c (s.withTurns [.answer]) = .next (s.withTurns []) := by
      obtain ho | hc := h
      · exact stepWith_answer_of_not_outstanding c (s := s.withTurns [.answer]) rfl ho
      · exact stepWith_answer_of_answered c (s := s.withTurns [.answer]) rfl hc
    exact ⟨_, take_of_stepWith hidle, hs.phase, .answerIdle (stageOf_ne_wait h)⟩
  · obtain ⟨ho, hc⟩ : outstanding s.regs = true ∧ s.crsp = none := by simpa using h
    obtain ⟨hp, hsub⟩ := (outstanding_iff _).1 ho
    refine ⟨_, take_answer_of_unanswered c hp hsub hc, hs.phase, ?_⟩
    rw [State.stage, hc]
    exact stageStep_answer hp hsub _

/-- Every quiet turn takes its step, keeps the operation started, and does to the stage what its agent can do. -/
theorem take_quiet (c : Cipher) {s : State} {x : Turn} (hs : s.started) (hx : isQuiet x = true) :
    ∃ u, s.take c x = some u ∧ u.started ∧ StageStep x s.stage u.stage := by
  cases x with
  | host w =>
    obtain ⟨u, hu, hregs, hcrsp⟩ := take_host c hs.phase hx
    have hphase : u.regs.phase = s.regs.phase := by
      obtain h | h := hregs
      · rw [h]
      · rw [h, reject_phase]
    have hstage : u.stage = s.stage := by
      unfold State.stage
      obtain h | h := hregs
      · rw [h, hcrsp]
      · rw [h, hcrsp, stageOf_reject]
    exact ⟨u, hu, ⟨seqInv_of_take hs.inv hu, hphase ▸ hs.phase⟩, hstage ▸ .host w _⟩
  | engine =>
    obtain ⟨u, hu, hp, hstep⟩ := take_engine_stage c hs
    exact ⟨u, hu, ⟨seqInv_of_take hs.inv hu, hp⟩, hstep⟩
  | answer =>
    obtain ⟨u, hu, hp, hstep⟩ := take_answer_stage c hs
    exact ⟨u, hu, ⟨seqInv_of_take hs.inv hu, hp⟩, hstep⟩
  | respond w | rst => exact nomatch hx

/-- Quiet turns, one after another. -/
theorem takeAll_quiet (c : Cipher) {s : State} {xs : List Turn} (hs : s.started) (hxs : ∀ x ∈ xs, isQuiet x = true) :
    ∃ u, s.takeAll c xs = some u ∧ u.started ∧ StagePath xs s.stage u.stage := by
  induction xs generalizing s with
  | nil => exact ⟨s, rfl, hs, rfl⟩
  | cons x xs ih =>
    obtain ⟨hx, hxs⟩ := List.forall_mem_cons.1 hxs
    obtain ⟨m, hm, hms, hstep⟩ := take_quiet c hs hx
    obtain ⟨u, hu, hus, hpath⟩ := ih hms hxs
    exact ⟨u, (takeAll_cons hm xs).trans hu, hus, m.stage, hstep, hpath⟩

/-! Termination (R147, R249, R250). -/

theorem fairRound.quiet {r : List Turn} (h : fairRound r) : ∀ x ∈ r, isQuiet x = true := by
  obtain ⟨-, -, hquiet⟩ := h
  exact hquiet

/-- As many fair rounds as steps are left reach DONE. -/
theorem run_fairRounds (c : Cipher) {s : State} {rounds : List (List Turn)} (hs : s.started)
    (hfair : ∀ r ∈ rounds, fairRound r) (hleft : s.stage.turnsLeft ≤ rounds.length) :
    ∃ t : State, (coreWith c).run rounds.flatten.length (s.withTurns rounds.flatten) = .next t ∧
      t.regs.phase = .done := by
  have hquiet : ∀ x ∈ rounds.flatten, isQuiet x = true := by
    intro x hx
    obtain ⟨r, hr, hxr⟩ := List.mem_flatten.1 hx
    exact (hfair r hr).quiet x hxr
  obtain ⟨u, hu, hus, hpath⟩ := takeAll_quiet c hs hquiet
  have hu0 : u.stage.turnsLeft ≤ s.stage.turnsLeft - rounds.length :=
    hpath.flatten fun r hr _ _ h => h.turnsLeft_of_fairRound (hfair r hr)
  exact ⟨_, run_of_takeAll hu, hus.done_of_ended (Stage.eq_ended_of_turnsLeft (by omega))⟩

/-- As many rounds of strict alternation as are left reach DONE. -/
theorem run_fairTurns (c : Cipher) {s : State} {k : Nat} (hs : s.started) (hleft : s.stage.roundsLeft ≤ k) :
    ∃ t : State, (coreWith c).run (2 * k) (s.withTurns (fairTurns k)) = .next t ∧ t.regs.phase = .done := by
  have hquiet : ∀ x ∈ fairTurns k, isQuiet x = true := by
    intro x hx
    obtain ⟨r, hr, hxr⟩ := List.mem_flatten.1 hx
    obtain rfl := List.eq_of_mem_replicate hr
    obtain rfl | rfl : x = .engine ∨ x = .answer := by simpa using hxr
    · rfl
    · rfl
  obtain ⟨u, hu, hus, hpath⟩ := takeAll_quiet c hs hquiet
  have hu0 : u.stage.roundsLeft ≤ s.stage.roundsLeft - (List.replicate k [Turn.engine, Turn.answer]).length :=
    hpath.flatten fun r hr _ _ h => (List.eq_of_mem_replicate hr ▸ h).roundsLeft_of_alternation
  rw [List.length_replicate] at hu0
  have hlen : (fairTurns k).length = 2 * k := by
    simp [fairTurns]
    omega
  rw [← hlen]
  exact ⟨_, run_of_takeAll hu, hus.done_of_ended (Stage.eq_ended_of_roundsLeft (by omega))⟩

/-- POLL stops at the first read outside BUSY (R101). -/
theorem poll_not_busy {c : Cipher} {s u : State} {g : List Turn} (gs : List (List Turn)) (hu : s.takeAll c g = some u)
    (hb : u.regs.phase ≠ .busy) :
    poll c s (g :: gs) = some (statusView u.regs,
      { state := { u with rdata := statusView u.regs, turns := [] }, gaps := gs }) := by
  have he : pollEnds (statusView u.regs) = true := (pollEnds_statusView u.regs).2 hb
  simp [poll, takeAll_append, hu, State.takeAll, take_rdLine, hostRead, he]

/-- A POLL with as many fair rounds before its reads as steps are left ends in DONE (R102, R249). -/
theorem poll_fairRounds (c : Cipher) {s : State} {gaps : List (List Turn)} (hs : s.started)
    (hb : s.regs.phase = .busy) (hfair : ∀ g ∈ gaps, fairRound g) (hleft : s.stage.turnsLeft ≤ gaps.length) :
    ∃ v x, poll c s gaps = some (v, x) ∧ x.state.regs.phase = .done := by
  induction gaps generalizing s with
  | nil => exact absurd (Stage.eq_ended_of_turnsLeft (Nat.le_zero.1 hleft)) (stageOf_ne_ended hb s.crsp)
  | cons g gs ih =>
    obtain ⟨hg, hgs⟩ := List.forall_mem_cons.1 hfair
    obtain ⟨u, hu, hus, hpath⟩ := takeAll_quiet c hs hg.quiet
    have hless := hpath.turnsLeft_of_fairRound hg
    by_cases hub : u.regs.phase = .busy
    · rw [poll_busy gs hu hub]
      refine ih ⟨hus.inv, hus.phase⟩ hub hgs ?_
      rw [List.length_cons] at hleft
      exact hless.trans (Nat.sub_le_of_le_add hleft)
    · exact ⟨_, _, poll_not_busy gs hu hub, eq_done_of_ne hus.phase hub⟩

/-- Settles O59: with the ranges of R37 (b) at most `18n + 1` steps and `12n + 1` rounds of alternation are left. -/
theorem fairOperationTerminates : Obligations.FairOperationTerminates := by
  intro c s hinv hb
  have hs : s.started := ⟨hinv, by simp [hb]⟩
  obtain ⟨hr, -, -⟩ := (seqInv_iff_of_busy hb).1 hinv
  obtain ⟨hturns, hrounds⟩ := left_le hb hr s.crsp
  refine ⟨fun rounds hfair hlen => run_fairRounds c hs hfair (hturns.trans hlen), fun gaps hfair hlen => ?_,
    run_fairTurns c hs hrounds⟩
  obtain ⟨v, x, hpoll, hdone⟩ := poll_fairRounds c hs hb hfair (hturns.trans hlen)
  obtain ⟨rfl, -, -⟩ := poll_spec hpoll
  refine ⟨_, x, hpoll, ?_, hdone⟩
  rw [statusView_phase, hdone]
  rfl

end Sys2Proof.Machine
end

section
/-! PROOFS. The host's commands, one after another (spec/40_commands.md): NOP and CLEAR by phase, and what a START in IDLE makes
of legal and of illegal lengths. -/

namespace Sys2Proof.Machine

/-! NOP and CLEAR (R111, R122). -/

/-- Outside BUSY a write to slot 0 is its command (R110). -/
theorem hostWrite_cmd_of_not_busy {b : Regs} (hp : b.phase ≠ .busy) (v : Semi) : hostWrite b .cmd v = command v b :=
  if_neg hp

theorem hostWrite_nop {b : Regs} (hp : b.phase ≠ .busy) : hostWrite b .cmd 0 = b :=
  (hostWrite_cmd_of_not_busy hp 0).trans (command_nop b)

theorem hostWrite_clear {b : Regs} (hp : b.phase ≠ .busy) : hostWrite b .cmd 3 = Regs.reset :=
  (hostWrite_cmd_of_not_busy hp 3).trans (command_clear b)

/-- Settles O12. -/
theorem clearReturnsToReset : Obligations.ClearReturnsToReset := fun _ =>
  ⟨fun hp => exec_wr_of_hostWrite (hostWrite_clear hp), fun hp => exec_wr_of_hostWrite (hostWrite_busy hp .cmd 3)⟩

/-- Settles O21; its example is a NOP in the reset state, which is in IDLE. -/
theorem nopChangesNothing : Obligations.NopChangesNothing := by
  have haccept (s : State) (hp : s.regs.phase ≠ .busy) : exec .nop s = .next s :=
    exec_wr_of_hostWrite (hostWrite_nop hp)
  refine ⟨rfl, haccept, fun s hp => exec_wr_of_hostWrite (hostWrite_busy hp .cmd 0), ?_⟩
  exact ⟨State.reset, haccept State.reset nofun, rfl⟩

/-! The length checks of a START (R113 to R116). -/

theorem kekLegal_iff (klen : BitVec 8) : kekLegal klen = true ↔ klen = 16 ∨ klen = 24 ∨ klen = 32 := by
  simp [kekLegal, or_assoc]

theorem kekLegal_iff_toNat (klen : BitVec 8) :
    kekLegal klen = true ↔ klen.toNat = 16 ∨ klen.toNat = 24 ∨ klen.toNat = 32 := by
  rw [kekLegal_iff, ← BitVec.toNat_inj, ← BitVec.toNat_inj, ← BitVec.toNat_inj]
  rfl

/-- The KEK length is tested first, whatever the data length (R113). -/
theorem lengthError_of_kekIllegal {b : Regs} (h : ¬ kekLegal b.KLEN = true) (m : Mode) :
    lengthError m b = some .invalidKekLength := if_neg h

theorem lengthError_wrap_of_kekLegal {b : Regs} (h : kekLegal b.KLEN = true) :
    lengthError .wrap b = if b.DLEN = b.KLEN then none else some .invalidKeyLength := if_pos h

theorem lengthError_unwrap_of_kekLegal {b : Regs} (h : kekLegal b.KLEN = true) :
    lengthError .unwrap b = if b.DLEN.toNat = b.KLEN.toNat + 8 then none else some .invalidWrappedKeyLength := if_pos h

theorem start_of_lengthError_none {m : Mode} {b : Regs} (h : lengthError m b = none) : start m b = acceptStart m b := by
  rw [start, h]

theorem start_of_lengthError_some {m : Mode} {b : Regs} {e : Exceptional} (h : lengthError m b = some e) :
    start m b = raiseOutcome e b := by
  rw [start, h]

/-- The operation that commands `Start(m)` (R119, R120). -/
def startCommand : Mode → Instr
  | .wrap => .wrap
  | .unwrap => .unwrap

/-- In IDLE a START is admitted (R112). -/
theorem exec_startCommand_idle {s : State} (hp : s.regs.phase = .idle) (m : Mode) :
    exec (startCommand m) s = .next (s.withRegs (start m s.regs)) := by
  have hb : s.regs.phase ≠ .busy := by simp [hp]
  cases m with
  | wrap =>
    refine exec_wr_of_hostWrite (v := 1) ((hostWrite_cmd_of_not_busy hb 1).trans ?_)
    exact (command_wrap s.regs).trans (if_pos hp)
  | unwrap =>
    refine exec_wr_of_hostWrite (v := 2) ((hostWrite_cmd_of_not_busy hb 2).trans ?_)
    exact (command_unwrap s.regs).trans (if_pos hp)

/-- A START that passes the length checks is accepted (R118). -/
theorem exec_startCommand_accepted {s : State} {m : Mode} (hp : s.regs.phase = .idle)
    (hl : lengthError m s.regs = none) : exec (startCommand m) s = .next (s.withRegs (acceptStart m s.regs)) := by
  rw [exec_startCommand_idle hp, start_of_lengthError_none hl]

/-- A START that fails a length check raises its outcome (R117, R118). -/
theorem exec_startCommand_refused {s : State} {m : Mode} {e : Exceptional} (hp : s.regs.phase = .idle)
    (hl : lengthError m s.regs = some e) : exec (startCommand m) s = .next (s.withRegs (raiseOutcome e s.regs)) := by
  rw [exec_startCommand_idle hp, start_of_lengthError_some hl]

/-- Settles O25: the test of the KEK length decides which of the two clauses applies, then the test of the data length. -/
theorem illegalLengthsRefuseStart : Obligations.IllegalLengthsRefuseStart := by
  refine fun s hp => ⟨fun hk => ?_, fun hk => ⟨fun hd => ?_, fun hd => ?_⟩⟩
  · have hl := lengthError_of_kekIllegal (mt (kekLegal_iff_toNat _).1 hk)
    exact ⟨exec_startCommand_refused hp (hl .wrap), exec_startCommand_refused hp (hl .unwrap)⟩
  · have hl := lengthError_wrap_of_kekLegal ((kekLegal_iff_toNat _).2 hk)
    have hne : s.regs.DLEN ≠ s.regs.KLEN := fun h => hd (congrArg BitVec.toNat h)
    exact exec_startCommand_refused (m := .wrap) hp (hl.trans (if_neg hne))
  · have hl := lengthError_unwrap_of_kekLegal ((kekLegal_iff_toNat _).2 hk)
    exact exec_startCommand_refused (m := .unwrap) hp (hl.trans (if_neg hd))

/-! An accepted START (R118). -/

/-- Settles O23. -/
theorem acceptedWrapStart : Obligations.AcceptedWrapStart := by
  intro s hp hk hd
  have hl : lengthError .wrap s.regs = none :=
    (lengthError_wrap_of_kekLegal ((kekLegal_iff _).2 hk)).trans (if_pos hd)
  exact exec_startCommand_accepted hp hl

/-- The count of an unwrap is exact in its three bits for a wrapped key of less than 72 bytes (R33, R94). -/
theorem semiblockCount_unwrap_toNat {dlen : BitVec 8} (h : dlen.toNat < 72) :
    (semiblockCount .unwrap dlen).toNat = (dlen.toNat - 8) / 8 := by
  refine Nat.mod_eq_of_lt ?_
  omega

/-- Settles O24: the last index is the semiblock count less one, which three bits hold exactly. -/
theorem acceptedUnwrapStart : Obligations.AcceptedUnwrapStart := by
  intro s hp hk hd
  have hlegal := (kekLegal_iff _).2 hk
  have hl : lengthError .unwrap s.regs = none := (lengthError_unwrap_of_kekLegal hlegal).trans (if_pos hd)
  have hlast : BitVec.ofNat 2 ((semiblockCount .unwrap s.regs.DLEN).toNat - 1) =
      BitVec.ofNat 2 ((s.regs.DLEN.toNat - 8) / 8 - 1) := by
    have hklen := (kekLegal_iff_toNat _).1 hlegal
    rw [semiblockCount_unwrap_toNat (by omega)]
  rw [← hlast]
  exact exec_startCommand_accepted hp hl

end Sys2Proof.Machine
end

section
/-! PROOFS. The schedule (spec/41_schedule.md): its step numbers, the request of a step, what a RETIRE makes of the
machine, and the end of an operation under every interleaving of quiet turns. -/

namespace Sys2Proof.Machine

/-! The step numbers of the schedule (R145, R146, R150). -/

/-- The rounds `0` to `r - 1` of `n` steps each, one after another, count through `1, .., r * n`. -/
theorem flatMap_stepCounter (n r : Nat) :
    ((List.range r).flatMap fun j => (List.range n).map fun i => stepCounter n j i) = List.range' 1 (r * n) := by
  induction r with
  | zero => simp
  | succ r ih =>
    have hround : ((List.range n).map fun i => stepCounter n r i) = List.range' (1 + 1 * (r * n)) n := by
      rw [List.range'_eq_map_range]
      refine List.map_congr_left fun i _ => ?_
      rw [stepCounter, Nat.mul_comm n r]
      omega
    rw [List.range_succ, List.flatMap_append, ih, List.flatMap_singleton, hround, List.range'_append, Nat.succ_mul]

/-- Settles O41: the schedule is six rounds of `n` steps. -/
theorem scheduleCountsEveryStep : Obligations.ScheduleCountsEveryStep := by
  intro n
  rw [schedule, List.map_flatMap]
  simp only [List.map_map]
  exact flatMap_stepCounter n 6

/-! The request of a step (R192). -/

theorem requestFields_wrap {b : Regs} (hm : b.mode = .wrap) : requestFields b =
    { dir := .enc, ksz := keySize b.KLEN, key := keyBus b.K b.KLEN, block := wrapBlock b } := by
  rw [requestFields, hm]

theorem requestFields_unwrap {b : Regs} (hm : b.mode = .unwrap) : requestFields b =
    { dir := .dec, ksz := keySize b.KLEN, key := keyBus b.K b.KLEN, block := unwrapBlock b } := by
  rw [requestFields, hm]

/-- Two zero semiblocks at the end of the key bus are its low half. -/
theorem append_zero_semis (x : BitVec 128) : x ++ 0#64 ++ 0#64 = x ++ 0#128 := BitVec.append_assoc

/-- Settles O38: the fields by mode, and the lanes of the key bus for each length. -/
theorem requestFieldsFollowTheState : Obligations.RequestFieldsFollowTheState := by
  refine ⟨fun b => ?_, fun k => ⟨append_zero_semis (k.q0 ++ k.q1), rfl, rfl⟩⟩
  cases hm : b.mode with
  | wrap =>
    rw [requestFields_wrap hm]
    exact ⟨rfl, rfl, rfl, fun _ => rfl, nofun⟩
  | unwrap =>
    rw [requestFields_unwrap hm]
    exact ⟨rfl, rfl, rfl, nofun, fun _ => rfl⟩

/-! RETIRE (R141, R142, R158, R173, R198). -/

/-- A RETIRE that is selected consumes the response on the port. -/
theorem retireStep_of_answered {s : State} {m : Mode} {r : Response} (hp : s.regs.phase = .busy)
    (hs : s.regs.sub = .wait) (hm : s.regs.mode = m) (hc : s.crsp = some r) (op : Regs → Response → Regs) :
    s.retireStep m op = s.retired (op s.regs r) := by
  have hsel : selected s.regs .wait m = true := (selected_iff _ _ _).2 ⟨hp, hs, hm⟩
  simp only [State.retireStep, hc, if_pos hsel]

section
variable {b : Regs}

/-- `NextW` within a round. -/
theorem nextWrap_of_lt (hi : b.i.toNat < b.n.toNat - 1) : nextWrap b = { b with i := b.i + 1, sub := .issue } :=
  if_pos hi

/-- `NextW` from the end of a round to the next one. -/
theorem nextWrap_of_round (hi : ¬ b.i.toNat < b.n.toNat - 1) (hj : b.j.toNat < 5) :
    nextWrap b = { b with j := b.j + 1, i := 0, sub := .issue } :=
  (if_neg hi).trans (if_pos hj)

/-- `NextW` from the end of the last round. -/
theorem nextWrap_of_last (hi : ¬ b.i.toNat < b.n.toNat - 1) (hj : ¬ b.j.toNat < 5) :
    nextWrap b = { b with sub := .fin } :=
  (if_neg hi).trans (if_neg hj)

/-- `NextU` within a round. -/
theorem nextUnwrap_of_pos (hi : 0 < b.i.toNat) : nextUnwrap b = { b with i := b.i - 1, sub := .issue } := if_pos hi

/-- `NextU` from the start of a round to the one before it. -/
theorem nextUnwrap_of_round (hi : ¬ 0 < b.i.toNat) (hj : 0 < b.j.toNat) :
    nextUnwrap b = { b with j := b.j - 1, i := BitVec.ofNat 2 (b.n.toNat - 1), sub := .issue } :=
  (if_neg hi).trans (if_pos hj)

/-- `NextU` from the start of the first round. -/
theorem nextUnwrap_of_last (hi : ¬ 0 < b.i.toNat) (hj : ¬ 0 < b.j.toNat) : nextUnwrap b = { b with sub := .fin } :=
  (if_neg hi).trans (if_neg hj)

/-- In range, counters that `NextW` cannot advance are the last ones (R37 (b)). -/
theorem last_of_busyRanges (hr : b.busyRanges) (hp : b.phase = .busy) (hi : ¬ b.i.toNat < b.n.toNat - 1)
    (hj : ¬ b.j.toNat < 5) : b.j = 5 ∧ b.i.toNat = b.n.toNat - 1 := by
  obtain ⟨-, hj5, hin, -⟩ := hr hp
  exact ⟨BitVec.eq_of_toNat_eq (le_antisymm hj5 (not_lt.1 hj)), le_antisymm hin (not_lt.1 hi)⟩

end

/-- Settles O28: the three cases are those of `NextW`. -/
theorem wrapRetireStoresAndAdvances : Obligations.WrapRetireStoresAndAdvances := by
  intro s B hp hs hm hc b
  have hretire : exec .wRetire s = .next (s.retired (nextWrap b)) :=
    congrArg _ (retireStep_of_answered hp hs hm hc retireWrap)
  rw [hretire]
  refine ⟨fun hi => ?_, fun hi hj => ?_, fun hi hj => ⟨?_, fun hinv => ?_⟩, bankGet_bankSet_same _ _ _,
    fun q hq => bankGet_bankSet_ne _ _ hq⟩
  · rw [nextWrap_of_lt (b := b) hi]
    rfl
  · rw [nextWrap_of_round (b := b) hi hj]
    rfl
  · rw [nextWrap_of_last (b := b) hi hj]
    rfl
  · obtain ⟨hr, -, -⟩ := (seqInv_iff_of_busy hp).1 hinv
    exact last_of_busyRanges hr hp hi hj

/-- Settles O29: the three cases are those of `NextU`. -/
theorem unwrapRetireStoresAndAdvances : Obligations.UnwrapRetireStoresAndAdvances := by
  intro s B hp hs hm hc b
  have hretire : exec .uRetire s = .next (s.retired (nextUnwrap b)) :=
    congrArg _ (retireStep_of_answered hp hs hm hc retireUnwrap)
  rw [hretire]
  refine ⟨fun hi => ?_, fun hi hj => ?_, fun hi hj => ⟨?_, ?_, ?_⟩, bankGet_bankSet_same _ _ _,
    fun q hq => bankGet_bankSet_ne _ _ hq⟩
  · rw [nextUnwrap_of_pos (b := b) hi]
    rfl
  · rw [nextUnwrap_of_round (b := b) hi hj]
    rfl
  · rw [nextUnwrap_of_last (b := b) hi hj]
    rfl
  · exact BitVec.eq_of_toNat_eq (Nat.eq_zero_of_not_pos hj)
  · exact BitVec.eq_of_toNat_eq (Nat.eq_zero_of_not_pos hi)

/-- Settles O30: in both modes the RETIRE raises the primitive failure. -/
theorem primitiveFailureEndsTheOperation : Obligations.PrimitiveFailureEndsTheOperation := fun _ _ hp hs hc =>
  ⟨fun hm => congrArg _ (retireStep_of_answered hp hs hm hc retireWrap),
    fun hm => congrArg _ (retireStep_of_answered hp hs hm hc retireUnwrap), rfl⟩

/-! The agent whose turn brings a machine on. Of the quiet turns outside IDLE its turn alone changes more than `rej` and
the last value read, so every quiet interleaving is the moves of that agent with idle turns between them (R148, R218). -/

theorem State.sameButRej.refl (s : State) : s.sameButRej s := ⟨rfl, rfl, rfl⟩

theorem State.sameButRej.trans {s t u : State} (h : s.sameButRej t) (h' : t.sameButRej u) : s.sameButRej u :=
  ⟨h.regs.trans h'.regs, h.crsp.trans h'.crsp, h.turns.trans h'.turns⟩

/-- Every turn takes its step (R215, R246). -/
theorem exists_take (c : Cipher) (s : State) (x : Turn) : ∃ u, s.take c x = some u := by
  obtain ⟨u, -, hu, -, -⟩ := (State.sameBlock.refl (s.withTurns [x])).stepWith rfl c
  exact ⟨u, take_of_stepWith hu⟩

/-- Every list of turns takes its steps. -/
theorem exists_takeAll (c : Cipher) (s : State) (xs : List Turn) : ∃ u, s.takeAll c xs = some u := by
  induction xs generalizing s with
  | nil => exact ⟨s, rfl⟩
  | cons x xs ih =>
    obtain ⟨m, hm⟩ := exists_take c s x
    rw [takeAll_cons hm]
    exact ih m

/-- The machine after the turn of the agent that brings it on. -/
def State.moved (c : Cipher) (s : State) : State := (s.take c s.stage.mover).getD s

theorem moved_of_take {c : Cipher} {s u : State} {x : Turn} (h : s.take c x = some u) (hx : s.stage.mover = x) :
    s.moved c = u := by
  rw [State.moved, hx, h, Option.getD_some]

/-- The adapter moves where a request is outstanding and unanswered. -/
theorem mover_of_unanswered {s : State} (hp : s.regs.phase = .busy) (hs : s.regs.sub = .wait) (hc : s.crsp = none) :
    s.stage.mover = .answer := by
  rw [State.stage, hc, stageOf_unanswered hp hs, Stage.mover]

/-- The engine moves in any other state. -/
theorem mover_of_not_unanswered {s : State} (h : outstanding s.regs = false ∨ s.crsp ≠ none) :
    s.stage.mover = .engine := by
  have hne : ∀ k, s.stage ≠ .wait k := stageOf_ne_wait h
  cases hg : s.stage with
  | wait k => exact absurd hg (hne k)
  | issue k | answered k | fin | ended => rfl

/-- A request is outstanding and unanswered, or the adapter has nothing to do. -/
theorem unanswered_cases (s : State) :
    (s.regs.phase = .busy ∧ s.regs.sub = .wait ∧ s.crsp = none) ∨ outstanding s.regs = false ∨ s.crsp ≠ none := by
  cases ho : outstanding s.regs with
  | false => exact .inr (.inl rfl)
  | true =>
    obtain ⟨hp, hs⟩ := (outstanding_iff _).1 ho
    cases hc : s.crsp with
    | none => exact .inl ⟨hp, hs, rfl⟩
    | some r => exact .inr (.inr nofun)

/-- `rej` and the last value read do not matter to the move. -/
theorem State.sameButRej.moved {s t : State} (h : s.sameButRej t) (c : Cipher) :
    (s.moved c).sameButRej (t.moved c) := by
  have hmover : s.stage.mover = t.stage.mover := by
    rw [h.eq_setRej]
    rfl
  obtain ⟨v, hv⟩ := exists_take c t t.stage.mover
  have hturn : (s.withTurns [t.stage.mover]).sameButRej (t.withTurns [t.stage.mover]) := ⟨h.regs, h.crsp, rfl⟩
  obtain ⟨u, hu, huv⟩ := hturn.stepWith (take_eq_some.1 hv)
  rw [moved_of_take (take_of_stepWith hu) hmover, moved_of_take hv rfl]
  exact huv

/-- In DONE nothing moves. -/
theorem moved_of_done (c : Cipher) {s : State} (hp : s.regs.phase = .done) (ht : s.turns = []) : s.moved c = s := by
  have hmover : s.stage.mover = .engine := by rw [State.stage, stageOf_done hp, Stage.mover]
  have hrest := stepWith_engine_of_not_busy c (s := s.withTurns [.engine]) rfl (by simp [hp])
  rw [moved_of_take (take_of_stepWith hrest) hmover]
  exact ht ▸ s.withTurns_self

/-- A quiet turn outside IDLE is the move, or passes but for `rej` and the last value read. -/
theorem take_quiet_moved {c : Cipher} {s u : State} {x : Turn} (hp : s.regs.phase ≠ .idle) (ht : s.turns = [])
    (hx : isQuiet x = true) (h : s.take c x = some u) : u.sameButRej s ∨ s.moved c = u := by
  have hpass (hstep : stepWith c (s.withTurns [x]) = .next (s.withTurns [x]).advance) : u.sameButRej s := by
    obtain rfl := Option.some.inj (h.symm.trans (take_of_stepWith hstep))
    exact ⟨rfl, rfl, ht.symm⟩
  cases x with
  | host w =>
    obtain ⟨v, hv, hregs, hcrsp⟩ := take_host c hp hx
    obtain rfl := Option.some.inj (h.symm.trans hv)
    have hnoRej : u.regs.noRej = s.regs.noRej := by
      obtain hr | hr := hregs
      · rw [hr]
      · rw [hr]
        rfl
    exact .inl ⟨hnoRej, hcrsp, (turns_of_stepWith (take_eq_some.1 h)).trans ht.symm⟩
  | engine =>
    obtain ⟨hb, hs, hc⟩ | hidle := unanswered_cases s
    · exact .inl (hpass (stepWith_engine_of_unanswered c rfl hb hs hc))
    · exact .inr (moved_of_take h (mover_of_not_unanswered hidle))
  | answer =>
    obtain ⟨hb, hs, hc⟩ | ho | hc := unanswered_cases s
    · exact .inr (moved_of_take h (mover_of_unanswered hb hs hc))
    · exact .inl (hpass (stepWith_answer_of_not_outstanding c rfl ho))
    · exact .inl (hpass (stepWith_answer_of_answered c rfl hc))
  | respond w | rst => exact nomatch hx

/-- A quiet turn does not lead back to IDLE (R30). -/
theorem phase_ne_idle_of_quiet {c : Cipher} {s u : State} {x : Turn} (hp : s.regs.phase ≠ .idle)
    (hx : isQuiet x = true) (h : s.take c x = some u) : u.regs.phase ≠ .idle := by
  obtain hkeep | ⟨hrst, -⟩ | ⟨hidle, -⟩ | ⟨-, hdone, -⟩ | ⟨-, hclear, -⟩ :=
    (blockStep_of_stepWith (take_eq_some.1 h)).phase_cases
  · exact hkeep ▸ hp
  · obtain rfl : x = .rst := hrst
    exact nomatch hx
  · exact absurd hidle hp
  · simp [hdone]
  · obtain rfl : x = clearLine := hclear
    exact absurd hx (by decide)

/-- A quiet run ends where some number of moves leads, but for `rej` and the last value read. -/
theorem takeAll_quiet_moved {c : Cipher} {s s' u : State} {xs : List Turn} (hp : s.regs.phase ≠ .idle)
    (ht : s.turns = []) (hsame : s.sameButRej s') (hxs : ∀ x ∈ xs, isQuiet x = true) (h : s.takeAll c xs = some u) :
    ∃ k, u.sameButRej ((State.moved c)^[k] s') := by
  induction xs generalizing s s' with
  | nil =>
    cases h
    exact ⟨0, hsame⟩
  | cons x xs ih =>
    obtain ⟨hx, hxs⟩ := List.forall_mem_cons.1 hxs
    obtain ⟨m, hm, hrest⟩ := Option.bind_eq_some_iff.1 h
    have hmp := phase_ne_idle_of_quiet hp hx hm
    have hmt : m.turns = [] := turns_of_stepWith (take_eq_some.1 hm)
    obtain hpass | rfl := take_quiet_moved hp ht hx hm
    · exact ih hmp hmt (hpass.trans hsame) hxs hrest
    · obtain ⟨k, hk⟩ := ih hmp hmt (hsame.moved c) hxs hrest
      exact ⟨k + 1, hk⟩

theorem turns_moved (c : Cipher) (s : State) : (s.moved c).turns = [] := by
  obtain ⟨u, hu⟩ := exists_take c s s.stage.mover
  rw [moved_of_take hu rfl]
  exact turns_of_stepWith (take_eq_some.1 hu)

theorem turns_iterate_moved (c : Cipher) {s : State} (ht : s.turns = []) (k : Nat) :
    ((State.moved c)^[k] s).turns = [] := by
  cases k with
  | zero => exact ht
  | succ k =>
    rw [Function.iterate_succ_apply']
    exact turns_moved c _

/-- After the end no number of moves leads on. -/
theorem iterate_moved_of_done {c : Cipher} {s : State} {k l : Nat} (ht : s.turns = [])
    (hp : ((State.moved c)^[k] s).regs.phase = .done) (hkl : k ≤ l) :
    (State.moved c)^[l] s = (State.moved c)^[k] s := by
  obtain ⟨d, rfl⟩ := Nat.exists_eq_add_of_le' hkl
  rw [Function.iterate_add_apply, Function.iterate_fixed (moved_of_done c hp (turns_iterate_moved c ht k))]

/-- The moves of a machine reach one state in DONE at most. -/
theorem iterate_moved_eq_of_done {c : Cipher} {s : State} {k l : Nat} (ht : s.turns = [])
    (hk : ((State.moved c)^[k] s).regs.phase = .done) (hl : ((State.moved c)^[l] s).regs.phase = .done) :
    (State.moved c)^[k] s = (State.moved c)^[l] s := by
  obtain hkl | hlk := le_total k l
  · exact (iterate_moved_of_done ht hk hkl).symm
  · exact iterate_moved_of_done ht hl hlk

/-- The run of the machine on quiet turns ends where some number of moves leads, but for `rej`. -/
theorem run_quiet_moved {c : Cipher} {s t : State} {ts : List Turn} (hp : s.regs.phase = .busy)
    (hts : ∀ x ∈ ts, isQuiet x = true) (h : (coreWith c).run ts.length (s.withTurns ts) = .next t) :
    ∃ k, t.regs.noRej = ((State.moved c)^[k] (s.withTurns [])).regs.noRej := by
  obtain ⟨u, hu⟩ := exists_takeAll c (s.withTurns []) ts
  obtain rfl : u.withTurns [] = t := Host.Outcome.next.inj ((run_of_takeAll hu).symm.trans h)
  have hidle : (s.withTurns []).regs.phase ≠ .idle := by simp [hp]
  obtain ⟨k, hk⟩ := takeAll_quiet_moved hidle rfl (.refl _) hts hu
  exact ⟨k, hk.regs⟩

/-- Settles O58: both runs end, but for `rej`, in the one state in DONE that the moves reach. -/
theorem resultIsIndependentOfInterleaving : Obligations.ResultIsIndependentOfInterleaving := by
  intro c s t u ts us hp hts hus ht htdone hu hudone
  obtain ⟨k, hk⟩ := run_quiet_moved hp hts ht
  obtain ⟨l, hl⟩ := run_quiet_moved hp hus hu
  have hkdone := (congrArg Regs.phase hk).symm.trans htdone
  have hldone := (congrArg Regs.phase hl).symm.trans hudone
  rw [hk, hl, iterate_moved_eq_of_done rfl hkdone hldone]

end Sys2Proof.Machine
end

section
/-! PROOFS. The engine's first and last step of a wrap (spec/42_wrap.md): the request that W.ISSUE raises and the result that
W.FIN leaves. -/

namespace Sys2Proof.Machine

/-- A micro-operation that is selected acts on the block's registers (R97). -/
theorem engineStep_of_selected {s : State} {u : Sub} {m : Mode} (hp : s.regs.phase = .busy) (hs : s.regs.sub = u)
    (hm : s.regs.mode = m) (op : Regs → Regs) : s.engineStep u m op = s.withRegs (op s.regs) :=
  if_pos ((selected_iff _ _ _).2 ⟨hp, hs, hm⟩)

/-- An ISSUE in BUSY raises the request of the fields as they stand before it (R143, R191). -/
theorem cipherRequest_issue {b : Regs} (hp : b.phase = .busy) : cipherRequest (issue b) = some (requestFields b) :=
  if_pos ((outstanding_iff (issue b)).2 ⟨hp, rfl⟩)

/-- Settles O26. -/
theorem wrapIssueRaisesItsRequest : Obligations.WrapIssueRaisesItsRequest := by
  refine ⟨Laws.RoundTrip.wIssue rfl, fun s hp hs hm => ⟨congrArg _ (engineStep_of_selected hp hs hm issue), ?_⟩⟩
  calc cipherRequest (issue s.regs)
    _ = some (requestFields s.regs) := cipherRequest_issue hp
    _ = some { dir := .enc, ksz := keySize s.regs.KLEN, key := keyBus s.regs.K s.regs.KLEN, block := wrapBlock s.regs } :=
      congrArg some (requestFields_wrap hm)

/-- The wrapped key of a running wrap is 24, 32 or 40 bytes long (R37 (b), R160). -/
theorem wrapResultLength_cases {b : Regs} (hr : b.busyRanges) (hp : b.phase = .busy) (hm : b.mode = .wrap) :
    wrapResultLength b = 24 ∨ wrapResultLength b = 32 ∨ wrapResultLength b = 40 := by
  obtain ⟨hn, -, -, -, hdlen, -⟩ := hr hp
  have hlen := hdlen hm
  have hresult {d : BitVec 8} (hd : b.DLEN.toNat = d.toNat) : wrapResultLength b = d + 8 :=
    congrArg (· + 8) (BitVec.eq_of_toNat_eq hd)
  obtain hn | hn | hn := hn <;> rw [hn] at hlen
  · exact .inl (hresult (d := 16) hlen)
  · exact .inr (.inl (hresult (d := 24) hlen))
  · exact .inr (.inr (hresult (d := 32) hlen))

/-- Settles O32: the length of the result follows from the ranges of R37 (b). -/
theorem wrapFinishSucceeds : Obligations.WrapFinishSucceeds := by
  refine ⟨Laws.RoundTrip.wFin rfl, fun s hp hs hm =>
    ⟨congrArg _ (engineStep_of_selected hp hs hm finishWrap), fun hinv => ?_⟩⟩
  obtain ⟨hr, -, -⟩ := (seqInv_iff_of_busy hp).1 hinv
  exact wrapResultLength_cases hr hp hm

end Sys2Proof.Machine
end

section
/-! PROOFS. The unwrap (spec/43_unwrap.md): its loop body takes back that of the wrap, so that the loops in reverse order
take back the whole transform; the request that U.ISSUE raises and the two ends of U.FIN. -/

namespace Sys2Proof.Machine

/-! The round trip (R163, R180, R181). -/

/-- Steps that are taken back one by one, the last one first, are taken back as a whole. -/
theorem foldl_reverse_of_step_undone {α β : Type} {f g : α → β → α} (hundo : ∀ a x, g (f a x) x = a)
    (xs : List β) (a : α) : xs.reverse.foldl g (xs.foldl f a) = a := by
  induction xs generalizing a with
  | nil => rfl
  | cons x xs ih =>
    calc (x :: xs).reverse.foldl g (xs.foldl f (f a x))
      _ = g (xs.reverse.foldl g (xs.foldl f (f a x))) x := by rw [List.reverse_cons, List.foldl_append]; rfl
      _ = g (f a x) x := by rw [ih]
      _ = a := hundo a x

section
variable {enc dec : Block128 → Block128}

/-- One pass of `Unwrap` takes back one pass of `Wrap`: the step counter cancels, so the block handed to `dec` is the one
that `enc` made of the accumulator and the element. -/
theorem unwrapStep_wrapStep (hdec : ∀ x, dec (enc x) = x) (n : Nat) (w : Work) (p : Nat × Nat) :
    unwrapStep dec n (wrapStep enc n w p) p = w := by
  have hblock (b : Block128) (t : Semi) : ((msb64 b ^^^ t) ^^^ t) ++ lsb64 b = b := by
    rw [BitVec.xor_assoc, BitVec.xor_self, BitVec.xor_zero, msb64_append_lsb64]
  simp only [unwrapStep, wrapStep, bankGet_bankSet_same, hblock, hdec, msb64_append, lsb64_append, bankSet_bankSet,
    bankSet_bankGet]

/-- The loops of `Unwrap` give back the ICV and the plaintext that `Wrap` starts from. -/
theorem unwrapLoops_wrapTransform (hdec : ∀ x, dec (enc x) = x) (n : Nat) (p : Quad) :
    unwrapLoops dec n (wrapTransform enc n p) = { A := Config.icv, R := p } :=
  foldl_reverse_of_step_undone (unwrapStep_wrapStep hdec n) (schedule n) _

end

/-- Settles O56: the accumulator that comes back is the ICV, so the comparison succeeds. -/
theorem unwrapUndoesWrap : Obligations.UnwrapUndoesWrap := by
  intro enc dec n p hdec
  rw [unwrapTransform, unwrapLoops_wrapTransform hdec]
  exact if_pos rfl

/-! U.ISSUE and U.FIN (R172, R174). -/

/-- Settles O27. -/
theorem unwrapIssueRaisesItsRequest : Obligations.UnwrapIssueRaisesItsRequest := by
  refine ⟨Laws.RoundTrip.uIssue rfl, fun s hp hs hm => ⟨congrArg _ (engineStep_of_selected hp hs hm issue), ?_⟩⟩
  calc cipherRequest (issue s.regs)
    _ = some (requestFields s.regs) := cipherRequest_issue hp
    _ = some { dir := .dec, ksz := keySize s.regs.KLEN, key := keyBus s.regs.K s.regs.KLEN, block := unwrapBlock s.regs } :=
      congrArg some (requestFields_unwrap hm)

section
variable {b : Regs}

/-- An unwrap whose accumulator is the ICV ends with OK. -/
theorem finishUnwrap_of_icv (hA : b.A = Config.icv) :
    finishUnwrap b = leaveBusy { b with outcome := .ok, rlen := unwrapResultLength b } := if_pos hA

/-- An unwrap whose accumulator is anything else raises the integrity failure. -/
theorem finishUnwrap_of_ne_icv (hA : b.A ≠ Config.icv) : finishUnwrap b = raiseOutcome .integrityFailure b := if_neg hA

/-- After an integrity failure the host reads zero in `A` and in every element of `R` (R176). -/
theorem hostRead_integrityFailure (b : Regs) : hostRead (raiseOutcome .integrityFailure b) .a = 0 ∧
    ∀ q, hostRead (raiseOutcome .integrityFailure b) (.r q) = 0 := by
  have hdone : (raiseOutcome .integrityFailure b).phase ≠ .busy := nofun
  exact ⟨hostRead_a_of_not_busy hdone, fun q => (hostRead_r_of_not_busy hdone q).trans (bankGet_zero q)⟩

end

/-- The code of INTEGRITY_FAIL is that of no other outcome (R38). -/
theorem eq_integrityFail_of_outcomeCode (o : OutcomeCode) (h : outcomeCode o = outcomeCode .integrityFail) :
    o = .integrityFail := by
  cases o with
  | integrityFail => rfl
  | none | ok | invalidKekLen | invalidKeyLen | invalidWrappedLen | primitiveErr => exact absurd h (by decide)

/-- Settles O33: the two ends are the branches of the comparison with the ICV. -/
theorem unwrapFinishChecksTheIcv : Obligations.UnwrapFinishChecksTheIcv := by
  refine ⟨Laws.RoundTrip.uFin rfl, eq_integrityFail_of_outcomeCode, fun s hp hs hm => ?_⟩
  have hfin : exec .uFin s = .next (s.withRegs (finishUnwrap s.regs)) :=
    congrArg _ (engineStep_of_selected hp hs hm finishUnwrap)
  refine ⟨fun hA => ?_, fun hA => ⟨?_, hostRead_integrityFailure s.regs⟩⟩
  · rw [hfin, finishUnwrap_of_icv hA]
    rfl
  · rw [hfin, finishUnwrap_of_ne_icv hA]
    rfl

end Sys2Proof.Machine
end

section
/-! PROOFS. The cipher port (spec/44_cipher_port.md): the request and response words field by field, the response that is
taken and those that are ignored. -/

namespace Sys2Proof

/-! The response word (R194). -/

/-- A CRSP word is the word of its three fields. -/
theorem crspWord_fields (w : BitVec 145) :
    crspWord (w.extractLsb' 144 1) (w.extractLsb' 128 16) (w.extractLsb' 0 128) = w := by
  rw [crspWord, extract_append_extract (b := 16) w rfl, extract_append_extract (b := 128) w rfl]
  exact extract_all w

/-- The encoder takes back the decoder on CRSP words. -/
theorem encode_decodeCrsp (w : BitVec 145) : encode (decodeCrsp w) = .crsp w :=
  congrArg Encoded.crsp (crspWord_fields w)

@[simp] theorem responseOf_zero (c : BitVec 16) (b : Block128) : responseOf 0 c b = .ok b := if_pos rfl

@[simp] theorem responseOf_one (c : BitVec 16) (b : Block128) : responseOf 1 c b = .err c := if_neg (by decide)

/-- Settles O3: a word's operation is that of its three fields, which make up the word. -/
theorem crspWordsAllDecode : Obligations.CrspWordsAllDecode :=
  ⟨fun w => ⟨_, _, _, rfl, encode_decodeCrsp w⟩, responseOf_zero, responseOf_one⟩

/-! The request word (R191). -/

section
variable (q : Request)

@[simp] theorem extract_requestWord_dir : (requestWord q).extractLsb' 386 1 = dirBit q.dir :=
  calc (requestWord q).extractLsb' 386 1
    _ = (dirBit q.dir ++ q.ksz ++ q.key).extractLsb' 258 1 := extract_append_high _ q.block (by decide)
    _ = (dirBit q.dir ++ q.ksz).extractLsb' 2 1 := extract_append_high _ q.key (by decide)
    _ = (dirBit q.dir).extractLsb' 0 1 := extract_append_high _ q.ksz (by decide)
    _ = dirBit q.dir := extract_all _

@[simp] theorem extract_requestWord_ksz : (requestWord q).extractLsb' 384 2 = q.ksz :=
  calc (requestWord q).extractLsb' 384 2
    _ = (dirBit q.dir ++ q.ksz ++ q.key).extractLsb' 256 2 := extract_append_high _ q.block (by decide)
    _ = (dirBit q.dir ++ q.ksz).extractLsb' 0 2 := extract_append_high _ q.key (by decide)
    _ = q.ksz.extractLsb' 0 2 := extract_append_low (dirBit q.dir) _ (by decide)
    _ = q.ksz := extract_all _

@[simp] theorem extract_requestWord_key : (requestWord q).extractLsb' 128 256 = q.key :=
  calc (requestWord q).extractLsb' 128 256
    _ = (dirBit q.dir ++ q.ksz ++ q.key).extractLsb' 0 256 := extract_append_high _ q.block (by decide)
    _ = q.key.extractLsb' 0 256 := extract_append_low (dirBit q.dir ++ q.ksz) _ (by decide)
    _ = q.key := extract_all _

@[simp] theorem extract_requestWord_block : (requestWord q).extractLsb' 0 128 = q.block :=
  calc (requestWord q).extractLsb' 0 128
    _ = q.block.extractLsb' 0 128 := extract_append_low (dirBit q.dir ++ q.ksz ++ q.key) _ (by decide)
    _ = q.block := extract_all _

end

/-- Settles O4, field by field. -/
theorem requestWordHoldsItsFields : Obligations.RequestWordHoldsItsFields := by
  refine fun q => ⟨(extract_requestWord_dir q).trans ?_, extract_requestWord_ksz q, extract_requestWord_key q,
    extract_requestWord_block q⟩
  cases q.dir with
  | enc => rfl
  | dec => rfl

end Sys2Proof

namespace Sys2Proof.Machine

/-! C.RESPOND (R194 to R196). -/

/-- Settles O34: the request is outstanding and unanswered, so its response is taken. -/
theorem responseIsTakenForTheRequest : Obligations.ResponseIsTakenForTheRequest := by
  intro s e c b hp hs hc
  have ho : outstanding s.regs = true := (outstanding_iff _).2 ⟨hp, hs⟩
  exact congrArg _ (takeResponse_of_unanswered ho hc (responseOf e c b))

/-- A response is ignored unless a request is outstanding and unanswered (R196 (a)). -/
theorem takeResponse_of_stray {s : State} (h : s.regs.phase ≠ .busy ∨ s.regs.sub ≠ .wait ∨ s.crsp ≠ none)
    (r : Response) : s.takeResponse r = s := by
  obtain ⟨hp, hs, hc, -⟩ | hkeep := takeResponse_cases s r
  · obtain h | h | h := h
    · exact absurd hp h
    · exact absurd hs h
    · exact absurd hc h
  · exact hkeep

/-- Settles O35. -/
theorem strayResponseIsIgnored : Obligations.StrayResponseIsIgnored :=
  fun _ e c b h => congrArg _ (takeResponse_of_stray h (responseOf e c b))

end Sys2Proof.Machine
end

section
/-! PROOFS. The exceptions (spec/60_exceptions.md): there is no fault, so every operation and every step goes on. -/

namespace Sys2Proof.Machine

/-- Every operation goes on: no arm of `exec` ends in a fault or a refusal (R215). -/
theorem exists_exec (i : Instr) (s : State) : ∃ t, exec i s = .next t := by
  obtain ⟨t, -, ht, -, -⟩ := (State.sameBlock.refl s).exec i
  exact ⟨t, ht⟩

/-- Every step goes on, whatever the cipher: a turn runs the operation it fetches, and one that fetches none is only used
up (R215, R246). -/
theorem exists_stepWith (c : Cipher) (s : State) : ∃ t, stepWith c s = .next t := by
  unfold stepWith
  cases fetch c s with
  | some i => exact exists_exec i s.advance
  | none => exact ⟨s.advance, rfl⟩

/-- Settles O8: a step runs an operation or passes, and every operation goes on. -/
theorem everyStepAnswersNext : Obligations.EveryStepAnswersNext :=
  ⟨exists_exec, exists_stepWith Config.cipher⟩

end Sys2Proof.Machine
end

section
/-! PROOFS. Reset (spec/70_reset_and_hazards.md): whatever phase it finds, it leaves the block in IDLE, where no request is
outstanding. -/

namespace Sys2Proof.Machine

/-- Outside BUSY the engine drives no request (R45, R191). -/
theorem cipherRequest_of_not_busy {b : Regs} (hp : b.phase ≠ .busy) : cipherRequest b = none :=
  if_neg fun ho => hp ((outstanding_iff b).1 ho).1

/-- Reset writes the registers and the port's response, and leaves the turns and the last value read (R240, R241). -/
theorem State.resetStep_eq (s : State) : s.resetStep = { s with regs := Regs.reset, crsp := none } := by
  rw [State.resetStep, resetRegs_eq]

/-- Settles O11: RESET looks at no phase, and the block it leaves is in IDLE. -/
theorem resetActsInEveryPhase : Obligations.ResetActsInEveryPhase := by
  intro s
  have hidle : Regs.reset.phase ≠ .busy := by simp
  exact ⟨(exec_reset s).trans (congrArg _ s.resetStep_eq), cipherRequest_of_not_busy hidle⟩

end Sys2Proof.Machine
end
